-- ==== Sys2Proof/Word.lean ====
section
/-! DEFINITION. The widths of the block's values (spec/10_state.md R30, R34, R35): a byte, a 16-bit word, and the
index of a general register. -/

namespace Sys2Proof

/-- An 8-bit value: a general register, a timer, a byte of memory (R30, R43, R49). -/
abbrev Byte := BitVec 8

/-- A 16-bit value: `I`, `pc`, a stack entry, an instruction word (R34, R35, R39, R100). -/
abbrev Word := BitVec 16

/-- The index of a general register, 0 to 15 (R30). -/
abbrev Reg := Fin 16

/-- The flag register `VF` is register 15 (R31, R33). -/
abbrev VF : Reg := 15

end Sys2Proof
end

