-- ==== Sys2Proof/Syntax.lean ====
section
/-! DEFINITION. The 35 instructions, one constructor per row of spec/30_encoding.md R105, in the table's order. -/

namespace Sys2Proof

/-- One instruction with its operand fields (R101, R110): `x`, `y` name registers, `kk` is a byte, `nnn` a 12-bit
address, `n` a count 0 to 15 (R102). `shr` and `shl` carry the `y` field, which the decoder takes and the
instruction ignores (R106). -/
inductive Instr where
  /-- `SYS nnn` (0nnn except 00E0, 00EE), R160. -/
  | sys (nnn : BitVec 12)
  /-- `CLS` (00E0), R230. -/
  | cls
  /-- `RET` (00EE), R161. -/
  | ret
  /-- `JP nnn` (1nnn), R162. -/
  | jp (nnn : BitVec 12)
  /-- `CALL nnn` (2nnn), R163. -/
  | call (nnn : BitVec 12)
  /-- `SE Vx, kk` (3xkk), R164. -/
  | seImm (x : Reg) (kk : Byte)
  /-- `SNE Vx, kk` (4xkk), R165. -/
  | sneImm (x : Reg) (kk : Byte)
  /-- `SE Vx, Vy` (5xy0), R166. -/
  | seReg (x y : Reg)
  /-- `LD Vx, kk` (6xkk), R190. -/
  | ldImm (x : Reg) (kk : Byte)
  /-- `ADD Vx, kk` (7xkk), R191. -/
  | addImm (x : Reg) (kk : Byte)
  /-- `LD Vx, Vy` (8xy0), R192. -/
  | ldReg (x y : Reg)
  /-- `OR Vx, Vy` (8xy1), R193. -/
  | orReg (x y : Reg)
  /-- `AND Vx, Vy` (8xy2), R194. -/
  | andReg (x y : Reg)
  /-- `XOR Vx, Vy` (8xy3), R195. -/
  | xorReg (x y : Reg)
  /-- `ADD Vx, Vy` (8xy4), R196. -/
  | addReg (x y : Reg)
  /-- `SUB Vx, Vy` (8xy5), R197. -/
  | subReg (x y : Reg)
  /-- `SHR Vx` (8xy6, `y` ignored), R198. -/
  | shr (x y : Reg)
  /-- `SUBN Vx, Vy` (8xy7), R199. -/
  | subnReg (x y : Reg)
  /-- `SHL Vx` (8xyE, `y` ignored), R200. -/
  | shl (x y : Reg)
  /-- `SNE Vx, Vy` (9xy0), R167. -/
  | sneReg (x y : Reg)
  /-- `LD I, nnn` (Annn), R271. -/
  | ldI (nnn : BitVec 12)
  /-- `JP V0, nnn` (Bnnn), R168. -/
  | jpV0 (nnn : BitVec 12)
  /-- `RND Vx, kk` (Cxkk), R201. -/
  | rnd (x : Reg) (kk : Byte)
  /-- `DRW Vx, Vy, n` (Dxyn), R231. -/
  | drw (x y : Reg) (n : Fin 16)
  /-- `SKP Vx` (Ex9E), R250. -/
  | skp (x : Reg)
  /-- `SKNP Vx` (ExA1), R251. -/
  | sknp (x : Reg)
  /-- `LD Vx, DT` (Fx07), R252. -/
  | ldFromDT (x : Reg)
  /-- `LD Vx, K` (Fx0A), R253. -/
  | ldKey (x : Reg)
  /-- `LD DT, Vx` (Fx15), R254. -/
  | ldDT (x : Reg)
  /-- `LD ST, Vx` (Fx18), R255. -/
  | ldST (x : Reg)
  /-- `ADD I, Vx` (Fx1E), R272. -/
  | addI (x : Reg)
  /-- `LD F, Vx` (Fx29), R273. -/
  | ldF (x : Reg)
  /-- `LD B, Vx` (Fx33), R274. -/
  | ldB (x : Reg)
  /-- `LD [I], Vx` (Fx55), R276. -/
  | storeRegs (x : Reg)
  /-- `LD Vx, [I]` (Fx65), R277. -/
  | loadRegs (x : Reg)
deriving DecidableEq, Repr

end Sys2Proof
end

