-- ==== Sys2Proof/Decode.lean ====
section
/-! DEFINITION. The instruction format (spec/30_encoding.md R100 to R102), the decoder (R103 to R110, R134), the
encoder, and the opcode map of R105 as rows of mask and match. -/

namespace Sys2Proof

/-! ## Byte order (R84, R100) -/

/-- The big-endian word of two bytes: `hi` stands at the lower address (R84). -/
def wordOfBytes (hi lo : Byte) : Word := BitVec.ofNat 16 (hi.toNat * 256 + lo.toNat)

/-- The byte of a word that is stored at the lower address, `w[15:8]` (R100). -/
def highByte (w : Word) : Byte := BitVec.ofNat 8 (w.toNat / 256)

/-- The byte of a word that is stored at the higher address, `w[7:0]` (R100). -/
def lowByte (w : Word) : Byte := BitVec.ofNat 8 (w.toNat % 256)

/-! ## Fields (R101) -/

/-- `op` = `w[15:12]`, the primary opcode. -/
def opField (w : Word) : Nat := w.toNat / 4096

/-- `x` = `w[11:8]`. -/
def xField (w : Word) : Reg := ⟨w.toNat / 256 % 16, Nat.mod_lt _ (by decide)⟩

/-- `y` = `w[7:4]`. -/
def yField (w : Word) : Reg := ⟨w.toNat / 16 % 16, Nat.mod_lt _ (by decide)⟩

/-- `n` = `w[3:0]`. -/
def nField (w : Word) : Fin 16 := ⟨w.toNat % 16, Nat.mod_lt _ (by decide)⟩

/-- `kk` = `w[7:0]`. -/
def kkField (w : Word) : Byte := BitVec.ofNat 8 (w.toNat % 256)

/-- `nnn` = `w[11:0]`. -/
def nnnField (w : Word) : BitVec 12 := BitVec.ofNat 12 (w.toNat % 4096)

/-! ## The decoder -/

/-- Why a decoder gives no instruction. -/
inductive DecodeError where
  /-- The word matches no row of R105 (R108, R307). Not a fault of the machine: its cycle completes. -/
  | unknown (w : Word)
  /-- Fewer than two bytes were given; no rule of the spec, it makes `decodeBytes` total (log entry 22). -/
  | truncated
deriving DecidableEq, Repr

/-- Second dispatch of group 0x0, on the low 12 bits (R103). -/
def decodeGroup0 (w : Word) : Instr :=
  if nnnField w = 0x0E0 then .cls
  else if nnnField w = 0x0EE then .ret
  else .sys (nnnField w)

/-- Second dispatch of group 0x8, on the low nibble (R103, R106). -/
def decodeGroup8 (w : Word) : Except DecodeError Instr :=
  match (nField w).val with
  | 0x0 => .ok (.ldReg (xField w) (yField w))
  | 0x1 => .ok (.orReg (xField w) (yField w))
  | 0x2 => .ok (.andReg (xField w) (yField w))
  | 0x3 => .ok (.xorReg (xField w) (yField w))
  | 0x4 => .ok (.addReg (xField w) (yField w))
  | 0x5 => .ok (.subReg (xField w) (yField w))
  | 0x6 => .ok (.shr (xField w) (yField w))
  | 0x7 => .ok (.subnReg (xField w) (yField w))
  | 0xE => .ok (.shl (xField w) (yField w))
  | _ => .error (.unknown w)

/-- Second dispatch of group 0xE, on the low byte (R103, R106). -/
def decodeGroupE (w : Word) : Except DecodeError Instr :=
  if kkField w = 0x9E then .ok (.skp (xField w))
  else if kkField w = 0xA1 then .ok (.sknp (xField w))
  else .error (.unknown w)

/-- Second dispatch of group 0xF, on the low byte (R103, R106). -/
def decodeGroupF (w : Word) : Except DecodeError Instr :=
  if kkField w = 0x07 then .ok (.ldFromDT (xField w))
  else if kkField w = 0x0A then .ok (.ldKey (xField w))
  else if kkField w = 0x15 then .ok (.ldDT (xField w))
  else if kkField w = 0x18 then .ok (.ldST (xField w))
  else if kkField w = 0x1E then .ok (.addI (xField w))
  else if kkField w = 0x29 then .ok (.ldF (xField w))
  else if kkField w = 0x33 then .ok (.ldB (xField w))
  else if kkField w = 0x55 then .ok (.storeRegs (xField w))
  else if kkField w = 0x65 then .ok (.loadRegs (xField w))
  else .error (.unknown w)

/-- The decoder: a handler is selected by the high nibble, groups 0, 8, E and F dispatch a second time, and groups 5
and 9 require `n = 0` (R103, R104, R106). It reads nothing but the word (R110). -/
def decode (w : Word) : Except DecodeError Instr :=
  match opField w with
  | 0x0 => .ok (decodeGroup0 w)
  | 0x1 => .ok (.jp (nnnField w))
  | 0x2 => .ok (.call (nnnField w))
  | 0x3 => .ok (.seImm (xField w) (kkField w))
  | 0x4 => .ok (.sneImm (xField w) (kkField w))
  | 0x5 => if nField w = 0 then .ok (.seReg (xField w) (yField w)) else .error (.unknown w)
  | 0x6 => .ok (.ldImm (xField w) (kkField w))
  | 0x7 => .ok (.addImm (xField w) (kkField w))
  | 0x8 => decodeGroup8 w
  | 0x9 => if nField w = 0 then .ok (.sneReg (xField w) (yField w)) else .error (.unknown w)
  | 0xA => .ok (.ldI (nnnField w))
  | 0xB => .ok (.jpV0 (nnnField w))
  | 0xC => .ok (.rnd (xField w) (kkField w))
  | 0xD => .ok (.drw (xField w) (yField w) (nField w))
  | 0xE => decodeGroupE w
  | 0xF => decodeGroupF w
  | _ => .error (.unknown w)

/-- The decoder over bytes: it always takes exactly two (R100). -/
def decodeBytes : List Byte → Except DecodeError (Instr × List Byte)
  | hi :: lo :: rest =>
    match decode (wordOfBytes hi lo) with
    | .ok i => .ok (i, rest)
    | .error e => .error e
  | [_] | [] => .error .truncated

/-! ## The encoder -/

/-- A word of the shape `op nnn`. -/
def wordNNN (op : Nat) (nnn : BitVec 12) : Word := BitVec.ofNat 16 (op * 4096 + nnn.toNat)

/-- A word of the shape `op x kk`. -/
def wordXKK (op : Nat) (x : Reg) (kk : Byte) : Word := BitVec.ofNat 16 (op * 4096 + x.val * 256 + kk.toNat)

/-- A word of the shape `op x y n`. -/
def wordXYN (op : Nat) (x y : Reg) (n : Fin 16) : Word :=
  BitVec.ofNat 16 (op * 4096 + x.val * 256 + y.val * 16 + n.val)

/-- The word of an instruction, by the pattern of its row of R105. -/
def encode : Instr → Word
  | .sys nnn => wordNNN 0x0 nnn
  | .cls => 0x00E0
  | .ret => 0x00EE
  | .jp nnn => wordNNN 0x1 nnn
  | .call nnn => wordNNN 0x2 nnn
  | .seImm x kk => wordXKK 0x3 x kk
  | .sneImm x kk => wordXKK 0x4 x kk
  | .seReg x y => wordXYN 0x5 x y 0x0
  | .ldImm x kk => wordXKK 0x6 x kk
  | .addImm x kk => wordXKK 0x7 x kk
  | .ldReg x y => wordXYN 0x8 x y 0x0
  | .orReg x y => wordXYN 0x8 x y 0x1
  | .andReg x y => wordXYN 0x8 x y 0x2
  | .xorReg x y => wordXYN 0x8 x y 0x3
  | .addReg x y => wordXYN 0x8 x y 0x4
  | .subReg x y => wordXYN 0x8 x y 0x5
  | .shr x y => wordXYN 0x8 x y 0x6
  | .subnReg x y => wordXYN 0x8 x y 0x7
  | .shl x y => wordXYN 0x8 x y 0xE
  | .sneReg x y => wordXYN 0x9 x y 0x0
  | .ldI nnn => wordNNN 0xA nnn
  | .jpV0 nnn => wordNNN 0xB nnn
  | .rnd x kk => wordXKK 0xC x kk
  | .drw x y n => wordXYN 0xD x y n
  | .skp x => wordXKK 0xE x 0x9E
  | .sknp x => wordXKK 0xE x 0xA1
  | .ldFromDT x => wordXKK 0xF x 0x07
  | .ldKey x => wordXKK 0xF x 0x0A
  | .ldDT x => wordXKK 0xF x 0x15
  | .ldST x => wordXKK 0xF x 0x18
  | .addI x => wordXKK 0xF x 0x1E
  | .ldF x => wordXKK 0xF x 0x29
  | .ldB x => wordXKK 0xF x 0x33
  | .storeRegs x => wordXKK 0xF x 0x55
  | .loadRegs x => wordXKK 0xF x 0x65

/-- The two bytes of an instruction in memory order, high byte first (R84, R100). -/
def encodeBytes (i : Instr) : List Byte := [highByte (encode i), lowByte (encode i)]

/-! ## The opcode map as data (R105) -/

/-- A row of R105: a word matches when `w & mask = match` and the word is not one of the exceptions. -/
structure OpcodeRow where
  /-- The column `match`. -/
  value : Word
  /-- The column `mask`. -/
  mask : Word
  /-- The exceptions (row 1 only). -/
  except : List Word := []
deriving DecidableEq, Repr

/-- `w & mask = match` and `w` is no exception (R105). -/
def OpcodeRow.matches (r : OpcodeRow) (w : Word) : Bool := (w &&& r.mask == r.value) && !r.except.contains w

/-- The row of each instruction, columns `match` and `mask` of R105. -/
def Instr.row : Instr → OpcodeRow
  | .sys _ => { value := 0x0000, mask := 0xF000, except := [0x00E0, 0x00EE] }
  | .cls => { value := 0x00E0, mask := 0xFFFF }
  | .ret => { value := 0x00EE, mask := 0xFFFF }
  | .jp _ => { value := 0x1000, mask := 0xF000 }
  | .call _ => { value := 0x2000, mask := 0xF000 }
  | .seImm _ _ => { value := 0x3000, mask := 0xF000 }
  | .sneImm _ _ => { value := 0x4000, mask := 0xF000 }
  | .seReg _ _ => { value := 0x5000, mask := 0xF00F }
  | .ldImm _ _ => { value := 0x6000, mask := 0xF000 }
  | .addImm _ _ => { value := 0x7000, mask := 0xF000 }
  | .ldReg _ _ => { value := 0x8000, mask := 0xF00F }
  | .orReg _ _ => { value := 0x8001, mask := 0xF00F }
  | .andReg _ _ => { value := 0x8002, mask := 0xF00F }
  | .xorReg _ _ => { value := 0x8003, mask := 0xF00F }
  | .addReg _ _ => { value := 0x8004, mask := 0xF00F }
  | .subReg _ _ => { value := 0x8005, mask := 0xF00F }
  | .shr _ _ => { value := 0x8006, mask := 0xF00F }
  | .subnReg _ _ => { value := 0x8007, mask := 0xF00F }
  | .shl _ _ => { value := 0x800E, mask := 0xF00F }
  | .sneReg _ _ => { value := 0x9000, mask := 0xF00F }
  | .ldI _ => { value := 0xA000, mask := 0xF000 }
  | .jpV0 _ => { value := 0xB000, mask := 0xF000 }
  | .rnd _ _ => { value := 0xC000, mask := 0xF000 }
  | .drw _ _ _ => { value := 0xD000, mask := 0xF000 }
  | .skp _ => { value := 0xE09E, mask := 0xF0FF }
  | .sknp _ => { value := 0xE0A1, mask := 0xF0FF }
  | .ldFromDT _ => { value := 0xF007, mask := 0xF0FF }
  | .ldKey _ => { value := 0xF00A, mask := 0xF0FF }
  | .ldDT _ => { value := 0xF015, mask := 0xF0FF }
  | .ldST _ => { value := 0xF018, mask := 0xF0FF }
  | .addI _ => { value := 0xF01E, mask := 0xF0FF }
  | .ldF _ => { value := 0xF029, mask := 0xF0FF }
  | .ldB _ => { value := 0xF033, mask := 0xF0FF }
  | .storeRegs _ => { value := 0xF055, mask := 0xF0FF }
  | .loadRegs _ => { value := 0xF065, mask := 0xF0FF }

/-- One instruction of each row, in the order of R105. -/
def rowSamples : List Instr := List.flatten
  [[.sys 0, .cls, .ret, .jp 0, .call 0, .seImm 0 0, .sneImm 0 0, .seReg 0 0, .ldImm 0 0, .addImm 0 0],
   [.ldReg 0 0, .orReg 0 0, .andReg 0 0, .xorReg 0 0, .addReg 0 0, .subReg 0 0, .shr 0 0, .subnReg 0 0, .shl 0 0],
   [.sneReg 0 0, .ldI 0, .jpV0 0, .rnd 0 0, .drw 0 0 0, .skp 0, .sknp 0, .ldFromDT 0, .ldKey 0, .ldDT 0],
   [.ldST 0, .addI 0, .ldF 0, .ldB 0, .storeRegs 0, .loadRegs 0]]

/-- The 35 rows of R105. -/
def opcodeTable : List OpcodeRow := rowSamples.map Instr.row

/-! ## The host's entry -/

/-- The instruction the decoder reads from the instruction whose table bits are `w` (log entry 22): the bits from
`nbits` up are zero, the word is laid out as two bytes in memory order and given to the decoder. -/
def decodeTableWord (nbits w : Nat) : Option Instr :=
  let word : Word := BitVec.ofNat 16 (w % 2 ^ nbits)
  match decodeBytes [highByte word, lowByte word] with
  | .ok (i, _) => some i
  | .error _ => none

end Sys2Proof
end

