-- ==== Sys2Proof/Config.lean ====
section
/-! DEFINITION. What is fixed for the hardware (spec/00_scope.md R7, R8), the parameters of creation (R76, R341), and
the free values of the cycle's two inputs (R61, R62). -/

namespace Sys2Proof.Config

/-- `MEM_SIZE`: 4096 bytes, addresses 0x000 to 0xFFF (R7, R70). -/
abbrev memSize : Nat := 4096

/-- `PROGRAM_ORIGIN`: where a ROM is loaded and execution starts (R7, R342). -/
abbrev programOrigin : Nat := 0x200

/-- `FONT_BASE`: the first byte of the font (R7, R74). -/
abbrev fontBase : Nat := 0x050

/-- The last byte of the font: 16 glyphs of 5 bytes from `FONT_BASE` (R7, R74). -/
abbrev fontLast : Nat := 0x09F

/-- `DISPLAY_W`: columns of the display (R7, R44). -/
abbrev displayW : Nat := 64

/-- `DISPLAY_H`: rows of the display (R7, R44). -/
abbrev displayH : Nat := 32

/-- The parameters of creation: `FONT_DATA` (R76, R7), and the OPEN ones, any value of its width each (R341). -/
structure Init where
  /-- `FONT_DATA`: 16 glyphs of 5 bytes (R7, R75). Its default is `Sys2Proof.Machine.defaultFont`. -/
  font : Vector Byte 80
  /-- `INIT_V`. -/
  V  : Vector Byte 16
  /-- `INIT_DT`. -/
  DT : Byte
  /-- `INIT_ST`. -/
  ST : Byte
  /-- `INIT_STACK` (never observable, R45). -/
  S  : Vector Word 16
deriving DecidableEq, Repr

/-- FREE VALUE (log entry 1): the key vector of cycle number `n` where the host's input list holds none (R61). -/
opaque freeKeys (n : Nat) : Vector Bool 16

/-- FREE VALUE (log entry 1): the random byte of cycle number `n` where the host's input list holds none; a free
draw under no law (R62). -/
opaque freeRandom (n : Nat) : Byte

end Sys2Proof.Config
end

