-- ==== Sys2Proof/Machine/Font.lean ====
section
/-! DEFINITION. The font table (spec/20_memory.md R74 to R76): the default of the parameter `FONT_DATA`, and the cells
of a memory created with a `FONT_DATA`. -/

namespace Sys2Proof.Machine

/-- The default of `FONT_DATA`, the 80 font bytes of R76, glyph by glyph. UNVERIFIED (log entry 5): R76 takes them from general
knowledge of CHIP-8; its source does not give them. -/
def fontData : List Byte :=
  [0xF0, 0x90, 0x90, 0x90, 0xF0] ++  -- 0
  [0x20, 0x60, 0x20, 0x20, 0x70] ++  -- 1
  [0xF0, 0x10, 0xF0, 0x80, 0xF0] ++  -- 2
  [0xF0, 0x10, 0xF0, 0x10, 0xF0] ++  -- 3
  [0x90, 0x90, 0xF0, 0x10, 0x10] ++  -- 4
  [0xF0, 0x80, 0xF0, 0x10, 0xF0] ++  -- 5
  [0xF0, 0x80, 0xF0, 0x90, 0xF0] ++  -- 6
  [0xF0, 0x10, 0x20, 0x40, 0x40] ++  -- 7
  [0xF0, 0x90, 0xF0, 0x90, 0xF0] ++  -- 8
  [0xF0, 0x90, 0xF0, 0x10, 0xF0] ++  -- 9
  [0xF0, 0x90, 0xF0, 0x90, 0x90] ++  -- A
  [0xE0, 0x90, 0xE0, 0x90, 0xE0] ++  -- B
  [0xF0, 0x80, 0x80, 0x80, 0xF0] ++  -- C
  [0xE0, 0x90, 0x90, 0x90, 0xE0] ++  -- D
  [0xF0, 0x80, 0xF0, 0x80, 0xF0] ++  -- E
  [0xF0, 0x80, 0xF0, 0x80, 0x80]     -- F

/-- The address is in the font table, 0x050 to 0x09F (R74). -/
def inFont (a : Nat) : Bool := Config.fontBase ≤ a && a ≤ Config.fontLast

/-- The default of the parameter `FONT_DATA` (R7, R76). -/
def defaultFont : Vector Byte 80 := ⟨fontData.toArray, by decide⟩

/-- What a byte that memory does not list reads as: the default font in the font table, zero elsewhere (R340, log
entry 21). -/
def unlistedByte (a : Nat) : Byte :=
  if inFont a then fontData.getD (a - Config.fontBase) 0 else 0

/-- The cells of `bytes` at `a` upward that differ from what an unlisted byte reads as. -/
def cellsAt (a : Nat) : List Byte → List Host.Cell
  | [] => []
  | b :: rest => if b = unlistedByte a then cellsAt (a + 1) rest else (a, b) :: cellsAt (a + 1) rest

/-- The memory a machine is created with: zero, then `FONT_DATA` in the font table (R340). With the default font
nothing is listed. -/
def createdMemory (font : Vector Byte 80) : List Host.Cell := cellsAt Config.fontBase font.toList

/-- The address of the glyph of digit `d` as `LD F, Vx` computes it: exact, not masked (R75, R273). -/
def glyphAddress (d : Byte) : Nat := Config.fontBase + 5 * d.toNat

end Sys2Proof.Machine
end

