-- ==== Sys2Proof/Machine/State.lean ====
section
/-! DEFINITION. The state of the block (spec/10_state.md R51), its fatal errors (spec/60_exceptions.md R300 to R304),
the ports it reads and writes (R60 to R65), and creation (spec/70_reset_and_hazards.md R340, R341). -/

namespace Sys2Proof.Machine

/-- The memory array `M` (R49, R70), held as the cells that differ from what an unlisted byte reads as, addresses strictly
rising (`Memory.wf`, log entry 21). Reading and writing are in Sys2Proof/Machine/Ops.lean. -/
abbrev Memory := List Host.Cell

/-- The display buffer, row by row: `P[y][x]` is the pixel of column `x` and row `y`, true for on (R44). -/
abbrev Display := Vector (Vector Bool 64) 32

/-- A fatal error with its recorded value (R300 to R304). Raising one halts the machine: the state after it is a NEXT
state that records it (R140, R311), so no step of the model ends in `Host.Outcome.fault` (DESIGN CHOICE, log entry 6).
Safe: the spec gives the halt and the model takes it. -/
inductive Fault where
  /-- Code 1: `CALL` with `SP = 16`; `a` is the address of the `CALL` (R300). Raised by `call`. Safe. -/
  | stackOverflow (a : Word)
  /-- Code 2: `RET` with `SP = 0`; `a` is the address of the `RET` (R301). Raised by `ret`. Safe. -/
  | stackUnderflow (a : Word)
  /-- Code 3: an access to `a >= 4096`, the lowest such address of the access, as an exact integer (R302, R13).
  Raised by the fetch, `drw`, `ldB`, `storeRegs` and `loadRegs`. Safe. -/
  | addressOutOfRange (a : Nat)
  /-- Code 4: a key index `v > 15` (R303, R256). Raised by `skp` and `sknp`. Safe. -/
  | keyIndexOutOfRange (v : Byte)
  /-- Code 5: an instruction write to `a` in the font, the lowest such address (R304, R74). Raised by `ldB` and
  `storeRegs`. Safe. -/
  | fontRegionWrite (a : Nat)
deriving DecidableEq, Repr

/-- Reasons for giving an instruction no meaning. No instruction of this model is refused. -/
inductive Refusal where
  /-- The instruction has no meaning in the model yet: raised by an arm of `exec` only. Safe. No arm is left. -/
  | notModelled (mnemonic : String)
deriving DecidableEq, Repr

/-- What the host supplies for one cycle: the key vector `K` and the random byte `r` (R60, R61, R62). -/
structure CycleInput where
  /-- `K[i]` is true when key `i` is held (R61). -/
  K : Vector Bool 16
  /-- The random byte (R62). -/
  r : Byte
deriving DecidableEq, Repr

/-- The outcome of a cycle, the block's status output (R65). -/
inductive CycleOutcome where
  /-- `Ok(beep, diag)`: the beep instant (R321) and the word of an `Unknown(w)` diagnostic, if any (R307). -/
  | ok (beep : Bool) (diag : Option Word)
  /-- `Fatal(f)`. -/
  | fatal (f : Fault)
deriving DecidableEq, Repr

/-- The state. The fields `M` to `fault` are the whole record of R51; `inputs`, `cycleNo` and `outcome` are the
model's own (DESIGN CHOICE, safe, log entries 1, 2 and 7) and stand for the ports of the cycle. -/
structure State where
  /-- Memory (R49). -/
  M : Memory
  /-- The general registers `V[0]` to `V[15]` (R30). -/
  V : Vector Byte 16
  /-- The index register (R34). -/
  I : Word
  /-- The program counter (R35). -/
  pc : Word
  /-- The stack entries `S[0]` to `S[15]` (R39). -/
  S : Vector Word 16
  /-- The stack pointer, 0 to 16: the number of entries in use (R39). -/
  SP : Fin 17
  /-- The delay timer (R43). -/
  DT : Byte
  /-- The sound timer (R43). -/
  ST : Byte
  /-- The display buffer (R44). -/
  P : Display
  /-- Whether a fatal error has been raised (R50). -/
  halted : Bool
  /-- The recorded fatal error (R50). -/
  fault : Option Fault
  /-- The inputs the host has supplied for the coming cycles, the next cycle's first (log entry 1). -/
  inputs : List CycleInput
  /-- The number of cycles made: the counter at which free inputs are drawn (log entry 2). -/
  cycleNo : Nat
  /-- The outcome of the last cycle, none when no cycle has been made (R65, log entry 7). -/
  outcome : Option CycleOutcome
deriving DecidableEq, Repr

/-- What a meaning or a step answers. -/
abbrev Result := Host.Outcome State Fault Refusal

/-- A new machine (R340) with the parameters `init`: `FONT_DATA` (R76) and the OPEN creation values (R341). -/
def State.create (init : Config.Init) : State :=
  { M := createdMemory init.font
    V := init.V
    I := 0
    pc := 0x200
    S := init.S
    SP := 0
    DT := init.DT
    ST := init.ST
    P := Vector.replicate 32 (Vector.replicate 64 false)
    halted := false
    fault := none
    inputs := []
    cycleNo := 0
    outcome := none }

/-- The parameters `State.reset` takes: the default font of R76 (log entry 5), and zero for the OPEN ones. DESIGN
CHOICE (log entries 3 and 4), unsafe: R341 admits any value. A claim about creation is stated over every `Init`. -/
def namedInit : Config.Init :=
  { font := defaultFont, V := Vector.replicate 16 0, DT := 0, ST := 0, S := Vector.replicate 16 0 }

/-- The machine right after creation, the only reset (R340), with the default font and the creation values of log
entries 3 and 4 where R341 leaves them open. Its memory lists nothing. -/
def State.reset : State := State.create namedInit

end Sys2Proof.Machine
end

