-- ==== Sys2Proof/Machine/Operands.lean ====
section
/-! DEFINITION. The operand forms: general registers (spec/10_state.md R30), the zero-extended immediates
(spec/30_encoding.md R102), the effective address of a data access (spec/45_index_memory.md R270), and the two inputs
of a cycle (R61, R62). -/

namespace Sys2Proof.Machine

/-- `V[x]` (R30): no register is hardwired. -/
def State.getV (s : State) (x : Reg) : Byte := s.V[x]

/-- `V[x] <- v` (R30). -/
def State.setV (s : State) (x : Reg) (v : Byte) : State := { s with V := s.V.set x v }

/-- A byte written to a register by `mod 256` of an exact value (R10, R205). -/
def byteOf (n : Nat) : Byte := BitVec.ofNat 8 n

/-- A 12-bit address viewed at 16 bits, zero-extended (R102). -/
def addressOf (nnn : BitVec 12) : Word := nnn.setWidth 16

/-- The exact address `I + j` of byte `j` of a data access, never reduced (R270). -/
def State.indexAddress (s : State) (j : Nat) : Nat := s.I.toNat + j

/-- The key vector `K` of the present cycle: the head of the host's input list, a free value where there is none
(R61, log entry 1). -/
def State.keys (s : State) : Vector Bool 16 :=
  match s.inputs with
  | [] => Config.freeKeys s.cycleNo
  | input :: _ => input.K

/-- The random byte `r` of the present cycle: the head of the host's input list, a free value where there is none
(R62, log entry 1). -/
def State.random (s : State) : Byte :=
  match s.inputs with
  | [] => Config.freeRandom s.cycleNo
  | input :: _ => input.r

/-- A register's value as a key index: none when it is above 15, never masked to 4 bits (R256). -/
def keyIndex (v : Byte) : Option (Fin 16) := if h : v.toNat < 16 then some ⟨v.toNat, h⟩ else none

/-- The least key that is held, if any (R253). -/
def lowestHeld (K : Vector Bool 16) : Option (Fin 16) := (List.finRange 16).find? fun i => K[i]

end Sys2Proof.Machine
end

