-- ==== Sys2Proof/Machine/Flags.lean ====
section
/-! DEFINITION. The flag computations (spec/42_alu.md R206, spec/10_state.md R31, R33): each is taken from operand
values read before any write, and written to `V[0xF]` after the result. -/

namespace Sys2Proof.Machine

/-- A flag value is 0 or 1 (R33). -/
def flagByte (b : Bool) : Byte := if b then 1 else 0

/-- `V[0xF] <- b ? 1 : 0` (R31). -/
def State.setFlag (s : State) (b : Bool) : State := s.setV VF (flagByte b)

/-- A result with its flag: `V[x]` first, `V[0xF]` last, so that the flag stays when `x = 0xF` (R31). -/
def State.setVFlag (s : State) (x : Reg) (v : Byte) (flag : Bool) : State := (s.setV x v).setFlag flag

/-- Carry of `ADD Vx, Vy`: the exact sum exceeds 255 (R196, R206). -/
def carryFlag (a b : Byte) : Bool := a.toNat + b.toNat > 255

/-- Flag of `SUB` and `SUBN`: the minuend STRICTLY exceeds the subtrahend (R197, R199, R206, 90_conflicts.md C13). -/
def exceedsFlag (minuend subtrahend : Byte) : Bool := minuend.toNat > subtrahend.toNat

/-- Flag of `SHR`: bit 0 before the shift (R198, R206). -/
def lowBitFlag (a : Byte) : Bool := a.getLsbD 0

/-- Flag of `SHL`: bit 7 before the shift (R200, R206). -/
def highBitFlag (a : Byte) : Bool := a.getLsbD 7

end Sys2Proof.Machine
end

