-- ==== Sys2Proof/Machine/Ops.lean ====
section
/-! DEFINITION. The shared operations: memory (spec/00_scope.md R13 to R15, spec/20_memory.md), raising a fatal error
(R16, R140, R311), the program counter (R36, R37), the call stack (R40) and the display (spec/43_display.md). There is
no return from an exception (R312). -/

namespace Sys2Proof.Machine

/-! ## Memory -/

/-- The byte `M[a]`: a listed cell's byte, else what an unlisted byte reads as (R70, R340). -/
def Memory.read : Memory → Nat → Byte
  | [], a => unlistedByte a
  | (k, b) :: rest, a => if k = a then b else Memory.read rest a

/-- `M[a] <- v`, keeping the canonical form: cells stay sorted, and a byte equal to what it reads as unlisted is
not listed. -/
def Memory.write : Memory → Nat → Byte → Memory
  | [], a, v => if v = unlistedByte a then [] else [(a, v)]
  | (k, b) :: rest, a, v =>
    if a < k then (if v = unlistedByte a then (k, b) :: rest else (a, v) :: (k, b) :: rest)
    else if a = k then (if v = unlistedByte a then rest else (a, v) :: rest)
    else (k, b) :: Memory.write rest a v

/-- The canonical form: addresses below 4096 and strictly rising, no cell equal to what it reads as
unlisted (DESIGN CHOICE, safe, log entry 21). -/
def Memory.wf : Memory → Bool
  | [] => true
  | (k, b) :: rest =>
    decide (k < Config.memSize) && decide (b ≠ unlistedByte k) && rest.all (fun c => decide (k < c.1)) &&
      Memory.wf rest

/-- The `n` bytes from `a` upward, ascending (R13). -/
def Memory.readBytes (m : Memory) (a : Nat) : Nat → List Byte
  | 0 => []
  | n + 1 => m.read a :: Memory.readBytes m (a + 1) n

/-- Bytes written one by one at ascending addresses (R85). -/
def Memory.writeBytes (m : Memory) (a : Nat) : List Byte → Memory
  | [] => m
  | b :: rest => Memory.writeBytes (m.write a b) (a + 1) rest

/-- The check of one address: 4096 and above is out of range, tested first; a write into the font is a fault
(R13, R14, R309). -/
def accessFault (write : Bool) (a : Nat) : Option Fault :=
  if Config.memSize ≤ a then some (.addressOutOfRange a)
  else if write && inFont a then some (.fontRegionWrite a)
  else none

/-- `CheckRange(a, n, write)`: the first failure of `a` .. `a + n - 1` in ascending order (R15). -/
def checkRange (write : Bool) (a : Nat) : Nat → Option Fault
  | 0 => none
  | n + 1 =>
    match accessFault write a with
    | some f => some f
    | none => checkRange write (a + 1) n

/-- `MemRead` over `n` bytes, all checked first (R13, R15). -/
def State.loadBytes (s : State) (a n : Nat) : Except Fault (List Byte) :=
  match checkRange false a n with
  | some f => .error f
  | none => .ok (s.M.readBytes a n)

/-- `MemWrite` of the given bytes, all checked first, so that a fault writes nothing (R14, R15). -/
def State.storeBytes (s : State) (a : Nat) (bytes : List Byte) : Except Fault State :=
  match checkRange true a bytes.length with
  | some f => .error f
  | none => .ok { s with M := s.M.writeBytes a bytes }

/-- The bytes of `V[0]` to `V[x]` in ascending order (R276). -/
def State.regBytes (s : State) (x : Reg) : List Byte := s.V.toList.take (x.val + 1)

/-- The register file with `bytes[i]` in register `i`; a register past the last byte keeps its value (R277). -/
def loadedRegs (V : Vector Byte 16) (bytes : List Byte) : Vector Byte 16 :=
  Vector.ofFn fun i : Reg => bytes.getD i.val V[i]

/-- `V[i] <- bytes[i]` for `i` in `0..x` (R277). -/
def State.setRegs (s : State) (bytes : List Byte) : State := { s with V := loadedRegs s.V bytes }

/-! ## Fatal errors (the machine's exceptions) -/

/-- The code of a fatal error (R300 to R304). -/
def Fault.code : Fault → Nat
  | .stackOverflow _ => 1
  | .stackUnderflow _ => 2
  | .addressOutOfRange _ => 3
  | .keyIndexOutOfRange _ => 4
  | .fontRegionWrite _ => 5

/-- Taking a fatal error: `halted <- true; fault <- f`, and nothing else changes; control goes nowhere
(R140, R311). -/
def State.raise (s : State) (f : Fault) : State := { s with halted := true, fault := some f }

/-- An access that may raise: its fault is taken, its value goes on. -/
def orRaise {α : Type} (s : State) (r : Except Fault α) (k : α → State) : State :=
  match r with
  | .ok v => k v
  | .error f => s.raise f

/-- The key index a register value names; above 15 it is a fatal error before any other effect (R256). -/
def keyOperand (v : Byte) : Except Fault (Fin 16) :=
  match keyIndex v with
  | some k => .ok k
  | none => .error (.keyIndexOutOfRange v)

/-! ## Program counter -/

/-- `pc <- (pc + 2) mod 65536`: the advance of R133 and a taken skip (R36 b). -/
def State.advance (s : State) : State := { s with pc := s.pc + 2 }

/-- A skip: one more advance when the condition holds (R36 b). -/
def State.skipIf (s : State) (c : Bool) : State := if c then s.advance else s

/-- `pc <- target` (R36 c, d, e). -/
def State.jump (s : State) (target : Word) : State := { s with pc := target }

/-- The address of the present instruction: `pc` holds it plus 2 (R17, R35). -/
def State.instrAddress (s : State) : Word := s.pc - 2

/-! ## Call stack -/

/-- A push: `S[SP] <- v; SP <- SP + 1`; the fault of a full stack when `SP = 16` (R40, R41). -/
def State.push (s : State) (v : Word) : Except Fault State :=
  if h : s.SP.val < 16 then
    .ok { s with S := s.S.set s.SP.val v, SP := ⟨s.SP.val + 1, by omega⟩ }
  else .error (.stackOverflow s.instrAddress)

/-- A pop: `SP <- SP - 1; v <- S[SP]`, the entry left in place; the fault of an empty stack when `SP = 0`
(R40, R41, R161). -/
def State.pop (s : State) : Except Fault (Word × State) :=
  if h : 0 < s.SP.val then
    .ok (s.S[s.SP.val - 1]'(by omega), { s with SP := ⟨s.SP.val - 1, by omega⟩ })
  else .error (.stackUnderflow s.instrAddress)

/-! ## Display -/

/-- All pixels off (R230). -/
def Display.clear : Display := Vector.replicate 32 (Vector.replicate 64 false)

/-- `P[x, y]`; a place outside the grid has no pixel and reads off. -/
def Display.get (P : Display) (x y : Nat) : Bool := if h : x < 64 ∧ y < 32 then P[y][x] else false

/-- `P[x, y] <- P[x, y] ^ 1`, for a pixel of the grid (R231). -/
def Display.flip (P : Display) (x y : Nat) : Display :=
  if h : x < 64 ∧ y < 32 then P.set y (P[y].set x (!P[y][x])) else P

/-- Pixel `b` of a sprite row, bit 7 leftmost: `(row >> (7 - b)) & 1` (R232). -/
def spriteBit (row : Byte) (b : Nat) : Bool := row.getLsbD (7 - b)

/-- A drawing in progress: the display and the collision bit `c` of R231. -/
structure Drawing where
  P : Display
  c : Bool
deriving DecidableEq, Repr

/-- One sprite pixel at `(px, py)`: dropped outside the grid or where the sprite bit is 0, else a collision is noted
and the pixel flipped (R231, R233, R234). -/
def Drawing.pixel (d : Drawing) (px py : Nat) (bit : Bool) : Drawing :=
  if px < 64 ∧ py < 32 ∧ bit = true then { P := d.P.flip px py, c := d.c || d.P.get px py } else d

/-- The pixels `b` .. 7 of one sprite row (R231). -/
def Drawing.rowFrom (d : Drawing) (row : Byte) (x0 py : Nat) : (remaining : Nat) → Drawing
  | 0 => d
  | k + 1 => (d.pixel (x0 + (7 - k)) py (spriteBit row (7 - k))).rowFrom row x0 py k

/-- The rows of a sprite from row `py` down, 8 pixels each (R231). -/
def Drawing.rows (d : Drawing) (x0 py : Nat) : List Byte → Drawing
  | [] => d
  | row :: rest => (d.rowFrom row x0 py 8).rows x0 (py + 1) rest

/-- The drawing of a sprite on a display: the new display and whether any pixel collided (R231). -/
def Display.draw (P : Display) (x0 y0 : Nat) (sprite : List Byte) : Drawing :=
  Drawing.rows { P := P, c := false } x0 y0 sprite

end Sys2Proof.Machine
end

