-- ==== Sys2Proof/Machine/Cycle.lean ====
section
/-! DEFINITION. The stages of a cycle around the execute stage (spec/40_cycle.md R131 to R141): fetch, the timer tick,
the outcome, the halt path, and the cycle on a halted machine. The advance is `State.advance`. -/

namespace Sys2Proof.Machine

/-- Fetch: the big-endian word at `pc`, or `AddressOutOfRange` (R132). -/
def State.fetch (s : State) : Except Fault Word :=
  match checkRange false s.pc.toNat 2 with
  | some f => .error f
  | none => .ok (wordOfBytes (s.M.read s.pc.toNat) (s.M.read (s.pc.toNat + 1)))

/-- The end of a cycle: the cycle's input is used up, the cycle is counted, and the outcome is put out
(R60, R65; DESIGN CHOICE, safe, log entries 1, 2, 7, 9). No field of R51 changes. -/
def State.report (s : State) (o : Option CycleOutcome) : State :=
  { s with inputs := s.inputs.tail, cycleNo := s.cycleNo + 1, outcome := o }

/-- A timer one tick later: it counts down and stops at 0 (R137, R320). -/
def countDown (t : Byte) : Byte := if t.toNat > 0 then t - 1 else t

/-- The timer tick of a completed cycle (R137). -/
def State.tick (s : State) : State := { s with DT := countDown s.DT, ST := countDown s.ST }

/-- The beep instant: `ST = 1` before the decrement (R137, R321). -/
def State.beep (s : State) : Bool := s.ST == 1

/-- A cycle that raised no fault: tick, then the outcome `Ok(beep, diag)` (R137, R138). -/
def State.complete (s : State) (diag : Option Word) : State := s.tick.report (some (.ok s.beep diag))

/-- A cycle that ends halted: no tick, the outcome `Fatal(fault)` (R131, R140). Where a state is halted with no fault
recorded, which no run reaches (R50), there is no `f` to report and the outcome is none
(DESIGN CHOICE, safe, log entry 8). -/
def State.endHalted (s : State) : State := s.report (s.fault.map CycleOutcome.fatal)

/-- The end of a cycle after its execute stage: the halt path when a fault was raised, else the tick (R137, R140). -/
def State.endCycle (s : State) (diag : Option Word) : State := if s.halted then s.endHalted else s.complete diag

/-- The rest of a cycle after the execute stage answered. -/
def afterExec : Result → Result
  | .next t => .next (t.endCycle none)
  | .fault f => .fault f
  | .refused r => .refused r

/-- A cycle on a halted machine: no stage is performed (R131). -/
def haltedCycle (s : State) : Result := .next s.endHalted

/-- A cycle whose fetch raised `f`: `pc` keeps the failing address, no tick (R132, R140). -/
def fetchFaultCycle (f : Fault) (s : State) : Result := .next (s.raise f).endHalted

/-- A cycle whose word is Unknown: only the advance and the tick, and the diagnostic (R108, R135, R307). -/
def unknownCycle (w : Word) (s : State) : Result := .next (s.advance.complete (some w))

end Sys2Proof.Machine
end

