-- ==== Sys2Proof/Machine/Alu.lean ====
section
/-! DEFINITION. The register and arithmetic instructions (spec/42_alu.md R190 to R206): results modulo 256 (R205),
flags written last (R206). -/

namespace Sys2Proof.Machine

/-- `LD Vx, kk` (R190). -/
def execLdImm (x : Reg) (kk : Byte) (s : State) : Result := .next (s.setV x kk)

/-- `ADD Vx, kk`: no flag (R191). -/
def execAddImm (x : Reg) (kk : Byte) (s : State) : Result := .next (s.setV x (s.getV x + kk))

/-- `LD Vx, Vy` (R192). -/
def execLdReg (x y : Reg) (s : State) : Result := .next (s.setV x (s.getV y))

/-- `OR Vx, Vy`: no flag (R193). -/
def execOrReg (x y : Reg) (s : State) : Result := .next (s.setV x (s.getV x ||| s.getV y))

/-- `AND Vx, Vy`: no flag (R194). -/
def execAndReg (x y : Reg) (s : State) : Result := .next (s.setV x (s.getV x &&& s.getV y))

/-- `XOR Vx, Vy`: no flag (R195). -/
def execXorReg (x y : Reg) (s : State) : Result := .next (s.setV x (s.getV x ^^^ s.getV y))

/-- `ADD Vx, Vy` with carry in `VF` (R196). -/
def execAddReg (x y : Reg) (s : State) : Result :=
  .next (s.setVFlag x (s.getV x + s.getV y) (carryFlag (s.getV x) (s.getV y)))

/-- `SUB Vx, Vy`: `V[x] - V[y]`, `VF` by strict comparison (R197). -/
def execSubReg (x y : Reg) (s : State) : Result :=
  .next (s.setVFlag x (s.getV x - s.getV y) (exceedsFlag (s.getV x) (s.getV y)))

/-- `SHR Vx`: shifts `V[x]`; `y` is ignored (R198, R106). -/
def execShr (x _y : Reg) (s : State) : Result :=
  .next (s.setVFlag x (s.getV x >>> 1) (lowBitFlag (s.getV x)))

/-- `SUBN Vx, Vy`: `V[y] - V[x]`, `VF` by strict comparison (R199). -/
def execSubnReg (x y : Reg) (s : State) : Result :=
  .next (s.setVFlag x (s.getV y - s.getV x) (exceedsFlag (s.getV y) (s.getV x)))

/-- `SHL Vx`: shifts `V[x]`, low 8 bits kept; `y` is ignored (R200, R106). -/
def execShl (x _y : Reg) (s : State) : Result :=
  .next (s.setVFlag x (s.getV x <<< 1) (highBitFlag (s.getV x)))

/-- `RND Vx, kk`: `V[x] <- r & kk` with the cycle's random byte (R201). -/
def execRnd (x : Reg) (kk : Byte) (s : State) : Result := .next (s.setV x (s.random &&& kk))

end Sys2Proof.Machine
end

