-- ==== Sys2Proof/Machine/ControlFlow.lean ====
section
/-! DEFINITION. The control transfer instructions (spec/41_control_flow.md R160 to R169). In every meaning `pc` is the
address of the instruction plus 2 (R17). -/

namespace Sys2Proof.Machine

/-- `SYS nnn` changes nothing (R160). -/
def execSys (_nnn : BitVec 12) (s : State) : Result := .next s

/-- `RET`: the pop, then `pc` is the popped address; `StackUnderflow` when `SP = 0` (R161). -/
def execRet (s : State) : Result := .next (orRaise s s.pop fun p => p.2.jump p.1)

/-- `JP nnn` (R162). -/
def execJp (nnn : BitVec 12) (s : State) : Result := .next (s.jump (addressOf nnn))

/-- `CALL nnn`: the push of `pc`, then the jump; `StackOverflow` when `SP = 16` (R163). -/
def execCall (nnn : BitVec 12) (s : State) : Result :=
  .next (orRaise s (s.push s.pc) fun t => t.jump (addressOf nnn))

/-- `SE Vx, kk` (R164). -/
def execSeImm (x : Reg) (kk : Byte) (s : State) : Result := .next (s.skipIf (s.getV x == kk))

/-- `SNE Vx, kk` (R165). -/
def execSneImm (x : Reg) (kk : Byte) (s : State) : Result := .next (s.skipIf (s.getV x != kk))

/-- `SE Vx, Vy` (R166). -/
def execSeReg (x y : Reg) (s : State) : Result := .next (s.skipIf (s.getV x == s.getV y))

/-- `SNE Vx, Vy` (R167). -/
def execSneReg (x y : Reg) (s : State) : Result := .next (s.skipIf (s.getV x != s.getV y))

/-- `JP V0, nnn`: `pc <- nnn + V[0]`, exact (R168). -/
def execJpV0 (nnn : BitVec 12) (s : State) : Result :=
  .next (s.jump (BitVec.ofNat 16 (nnn.toNat + (s.getV 0).toNat)))

end Sys2Proof.Machine
end

