-- ==== Sys2Proof/Machine/IndexMemory.lean ====
section
/-! DEFINITION. The index register and memory instructions (spec/45_index_memory.md R270 to R277). None changes `I` as a
side effect (R270). -/

namespace Sys2Proof.Machine

/-- `LD I, nnn` (R271). -/
def execLdI (nnn : BitVec 12) (s : State) : Result := .next { s with I := addressOf nnn }

/-- `ADD I, Vx`: modulo 65536, no flag (R272). -/
def execAddI (x : Reg) (s : State) : Result := .next { s with I := s.I + (s.getV x).setWidth 16 }

/-- `LD F, Vx`: `I <- 0x050 + 5 * V[x]`, not masked (R273). -/
def execLdF (x : Reg) (s : State) : Result := .next { s with I := BitVec.ofNat 16 (glyphAddress (s.getV x)) }

/-- The hundreds, tens and ones digits of a byte (R274, R275). -/
def bcdDigits (v : Byte) : List Byte :=
  [byteOf (v.toNat / 100), byteOf (v.toNat / 10 % 10), byteOf (v.toNat % 10)]

/-- `LD B, Vx`: the three digits at `I`, `I + 1`, `I + 2`, or a fault with nothing written (R274). -/
def execLdB (x : Reg) (s : State) : Result :=
  .next (orRaise s (s.storeBytes (s.indexAddress 0) (bcdDigits (s.getV x))) id)

/-- `LD [I], Vx`: `V[0]` to `V[x]` at `I` upward, or a fault with nothing written (R276). -/
def execStoreRegs (x : Reg) (s : State) : Result :=
  .next (orRaise s (s.storeBytes (s.indexAddress 0) (s.regBytes x)) id)

/-- `LD Vx, [I]`: `V[0]` to `V[x]` from `I` upward, or a fault with no register written (R277). -/
def execLoadRegs (x : Reg) (s : State) : Result :=
  .next (orRaise s (s.loadBytes (s.indexAddress 0) (x.val + 1)) s.setRegs)

end Sys2Proof.Machine
end

