-- ==== Sys2Proof/Machine/KeypadTimers.lean ====
section
/-! DEFINITION. The keypad and timer instructions (spec/44_keypad_timers.md R250 to R256). The tick that follows them in
the same cycle is in Sys2Proof/Machine/Cycle.lean. -/

namespace Sys2Proof.Machine

/-- `SKP Vx`: skips when the key is held; `KeyIndexOutOfRange` when `V[x] > 15` (R250, R256). -/
def execSkp (x : Reg) (s : State) : Result :=
  .next (orRaise s (keyOperand (s.getV x)) fun k => s.skipIf s.keys[k])

/-- `SKNP Vx`: skips when the key is not held; `KeyIndexOutOfRange` when `V[x] > 15` (R251, R256). -/
def execSknp (x : Reg) (s : State) : Result :=
  .next (orRaise s (keyOperand (s.getV x)) fun k => s.skipIf (!s.keys[k]))

/-- `LD Vx, DT`: the value before this cycle's tick (R252). -/
def execLdFromDT (x : Reg) (s : State) : Result := .next (s.setV x s.DT)

/-- `LD Vx, K`: with no key held `pc` goes back to this instruction, else `V[x]` is the least held key (R253). -/
def execLdKey (x : Reg) (s : State) : Result :=
  .next (match lowestHeld s.keys with
    | none => s.jump s.instrAddress
    | some k => s.setV x (byteOf k.val))

/-- `LD DT, Vx` (R254). -/
def execLdDT (x : Reg) (s : State) : Result := .next { s with DT := s.getV x }

/-- `LD ST, Vx` (R255). -/
def execLdST (x : Reg) (s : State) : Result := .next { s with ST := s.getV x }

end Sys2Proof.Machine
end

