-- ==== Sys2Proof/Machine/Screen.lean ====
section
/-! DEFINITION. The display instructions (spec/43_display.md R230 to R236). -/

namespace Sys2Proof.Machine

/-- `CLS`: every pixel off; `VF` is not written (R230). -/
def execCls (s : State) : Result := .next { s with P := Display.clear }

/-- `DRW Vx, Vy, n`: the start wraps once modulo 64 and 32, the `n` sprite bytes are checked and read, the sprite is
drawn by XOR with its pixels clipped, and `VF` is the collision, written last (R231 to R234). -/
def execDrw (x y : Reg) (n : Fin 16) (s : State) : Result :=
  .next (orRaise s (s.loadBytes (s.indexAddress 0) n.val) fun sprite =>
    let drawing := s.P.draw ((s.getV x).toNat % Config.displayW) ((s.getV y).toNat % Config.displayH) sprite
    State.setFlag { s with P := drawing.P } drawing.c)

end Sys2Proof.Machine
end

