-- ==== Sys2Proof/Machine/Step.lean ====
section
/-! DEFINITION. One step is one cycle (spec/40_cycle.md R141). -/

namespace Sys2Proof.Machine

/-- One invocation of the cycle port (R60, R141, R144) with the inputs `s.keys` and `s.random`. -/
def step (s : State) : Host.Outcome State Fault Refusal :=
  if s.halted then haltedCycle s
  else
    match s.fetch with
    | .error f => fetchFaultCycle f s
    | .ok w =>
      match decode w with
      | .ok i => afterExec (exec i s.advance)
      | .error _ => unknownCycle w s

/-- The state with the instruction whose table bits are `w` (bits from `nbits` up zero) stored at `pc` and `pc + 1`,
so that the next step of a machine that is not halted fetches it, for `pc` up to 0x0FFE; a byte at 4096 or above has no
place and is not stored (log entry 22). -/
def State.withFetchWord (s : State) (nbits w : Nat) : State :=
  let word : Word := BitVec.ofNat 16 (w % 2 ^ nbits)
  if s.pc.toNat + 1 < Config.memSize then
    { s with M := s.M.writeBytes s.pc.toNat [highByte word, lowByte word] }
  else s

end Sys2Proof.Machine
end

