-- ==== Sys2Proof/Machine/Ports.lean ====
section
/-! DEFINITION. The host's operations and what it reads (spec/10_state.md R60 to R66, spec/20_memory.md R80 to R83). -/

namespace Sys2Proof.Machine

/-- The cycle port: the host supplies `K` and `r` for this cycle and invokes it (R60, R144, R343). -/
def cycle (K : Vector Bool 16) (r : Byte) (s : State) : Result :=
  step { s with inputs := { K := K, r := r } :: s.inputs }

/-- The two failures of a ROM load (R308): results of the operation, no faults of the machine. -/
inductive LoadError where
  /-- The host's verdict that the source is unreadable (R80). -/
  | unreadable
  /-- The data does not fit from 0x200 to 0xFFF (R80). -/
  | tooLarge (len : Nat)
deriving DecidableEq, Repr

/-- The ROM load `load(src, len)`: the bytes go verbatim to 0x200 upward and nothing else changes, also on a halted
machine (R80 to R83). A failure gives no new state, so the machine stays as it was (R81). `readable` is the host's
verdict (92_eei_decisions.md D28). -/
def loadRom (readable : Bool) (src : List Byte) (s : State) : Except LoadError State :=
  if readable = false then .error .unreadable
  else if Config.programOrigin + src.length > Config.memSize then .error (.tooLarge src.length)
  else .ok { s with M := s.M.writeBytes Config.programOrigin src }

/-- The display output: 2048 pixels, element `y * 64 + x` is `P[x, y]` (R63). -/
def State.displayOutput (s : State) : List Bool :=
  (List.range (Config.displayW * Config.displayH)).map fun k => s.P.get (k % Config.displayW) (k / Config.displayW)

/-- The timer outputs `DT` and `ST` (R64). -/
def State.timerOutput (s : State) : Byte × Byte := (s.DT, s.ST)

end Sys2Proof.Machine
end

