-- ==== Sys2Proof/Safety.lean ====
section
/-! DEFINITION. What counts as a sound state and as a safe run, in the terms the statements use. -/

namespace Sys2Proof.Machine

/-- The font table holds `font`, the `FONT_DATA` of the machine (R74, R76). -/
def State.holdsFont (s : State) (font : Vector Byte 80) : Prop :=
  ∀ k : Fin 80, s.M.read (Config.fontBase + k.val) = font[k]

/-- Every stack entry in use is a return address a `CALL` can push, at most 0x1000 (R45, R163). -/
def State.stackBounded (s : State) : Prop := ∀ j : Fin 16, j.val < s.SP.val → s.S[j].toNat ≤ 0x1000

/-- `pc` is at most 0x10FE (R38). -/
def State.pcBounded (s : State) : Prop := s.pc.toNat ≤ 0x10FE

/-- `halted` and `fault` are set together (R50). -/
def State.haltRecorded (s : State) : Prop := s.halted = s.fault.isSome

/-- The invariant of a machine created with the `FONT_DATA` `font`. -/
structure State.Inv (font : Vector Byte 80) (s : State) : Prop where
  /-- Memory keeps its canonical form. -/
  memory : s.M.wf = true
  /-- The font is never mutated (R74). -/
  font : s.holdsFont font
  /-- The stack holds return addresses (R45). -/
  stack : s.stackBounded
  /-- The bound of R38. -/
  pc : s.pcBounded
  /-- The pair of R50. -/
  halt : s.haltRecorded

/-- The step answers a next state: no fault and no refusal of the host's interface. -/
def State.stepsOn (s : State) : Prop := ∃ t, step s = .next t

/-- A safe step: it answers a next state that is not halted. -/
def State.stepsSafely (s : State) : Prop := ∃ t, step s = .next t ∧ t.halted = false

/-! ## Terms of the statements -/

/-- `k` cycles of the machine, one after another (`Host.Core.run` of the machine, `runCycles_eq_run`). -/
def runCycles : Nat → State → Result
  | 0, s => .next s
  | k + 1, s =>
    match step s with
    | .next t => runCycles k t
    | .fault f => .fault f
    | .refused r => .refused r

/-- The word at `pc`, big-endian (R84, R132). -/
def State.wordAtPc (s : State) : Word := wordOfBytes (s.M.read s.pc.toNat) (s.M.read (s.pc.toNat + 1))

/-- `t` differs from `s` in register `x` at most. -/
def State.changesOnlyV (s t : State) (x : Reg) : Prop :=
  (∀ r : Reg, r ≠ x → t.V[r] = s.V[r]) ∧ t = { s with V := t.V }

/-- `t` differs from `s` in register `x` and the flag register at most. -/
def State.changesOnlyVFlag (s t : State) (x : Reg) : Prop :=
  (∀ r : Reg, r ≠ x → r ≠ VF → t.V[r] = s.V[r]) ∧ t = { s with V := t.V }

/-- The fatal error of a read of `n` bytes from `a`, if any: the lowest address at or above 4096 (R302). -/
def readFault (a n : Nat) : Option Fault :=
  if 0 < n ∧ 4096 < a + n then some (.addressOutOfRange (max a 4096)) else none

/-- The fatal error of a write of `n >= 1` bytes from `a`, if any: the lowest address at or above 4096 (R302), or
the lowest address in the font (R304); for at most 16 bytes the two exclude each other (R309). -/
def writeFault (a n : Nat) : Option Fault :=
  if 4096 < a + n then some (.addressOutOfRange (max a 4096))
  else if 0x050 < a + n ∧ a ≤ 0x09F then some (.fontRegionWrite (max a 0x050))
  else none

/-- The fatal error an instruction raises in a state, if any (R300 to R305): `pc - 2` is the address of the
instruction (R17). -/
def raisedBy (i : Instr) (s : State) : Option Fault :=
  match i with
  | .ret => if s.SP.val = 0 then some (.stackUnderflow (s.pc - 2)) else none
  | .call _ => if s.SP.val = 16 then some (.stackOverflow (s.pc - 2)) else none
  | .skp x => if 15 < s.V[x].toNat then some (.keyIndexOutOfRange s.V[x]) else none
  | .sknp x => if 15 < s.V[x].toNat then some (.keyIndexOutOfRange s.V[x]) else none
  | .drw _ _ n => readFault s.I.toNat n.val
  | .loadRegs x => readFault s.I.toNat (x.val + 1)
  | .ldB _ => writeFault s.I.toNat 3
  | .storeRegs x => writeFault s.I.toNat (x.val + 1)
  | .sys _ | .cls | .jp _ | .seImm _ _ | .sneImm _ _ | .seReg _ _ | .ldImm _ _ | .addImm _ _ | .ldReg _ _
  | .orReg _ _ | .andReg _ _ | .xorReg _ _ | .addReg _ _ | .subReg _ _ | .shr _ _ | .subnReg _ _ | .shl _ _
  | .sneReg _ _ | .ldI _ | .jpV0 _ | .rnd _ _ | .ldFromDT _ | .ldKey _ | .ldDT _ | .ldST _ | .addI _
  | .ldF _ => none

/-- The general registers an instruction may write: the table of R32. -/
def writesReg (i : Instr) (r : Reg) : Prop :=
  match i with
  | .ldImm x _ | .addImm x _ | .ldReg x _ | .orReg x _ | .andReg x _ | .xorReg x _ | .rnd x _ | .ldFromDT x
  | .ldKey x => r = x
  | .addReg x _ | .subReg x _ | .shr x _ | .subnReg x _ | .shl x _ => r = x ∨ r = VF
  | .drw _ _ _ => r = VF
  | .loadRegs x => r ≤ x
  | .sys _ | .cls | .ret | .jp _ | .call _ | .seImm _ _ | .sneImm _ _ | .seReg _ _ | .sneReg _ _ | .ldI _
  | .jpV0 _ | .skp _ | .sknp _ | .ldDT _ | .ldST _ | .addI _ | .ldF _ | .ldB _ | .storeRegs _ => False

/-- The instruction writes `I` (R34). -/
def writesI : Instr → Bool
  | .ldI _ | .addI _ | .ldF _ => true
  | _ => false

/-- The instruction writes the display (R44). -/
def writesDisplay : Instr → Bool
  | .cls | .drw _ _ _ => true
  | _ => false

/-- The instruction writes memory (R73). -/
def writesMemory : Instr → Bool
  | .ldB _ | .storeRegs _ => true
  | _ => false

/-- The instruction writes the delay timer (R43). -/
def writesDT : Instr → Bool
  | .ldDT _ => true
  | _ => false

/-- The instruction writes the sound timer (R43). -/
def writesST : Instr → Bool
  | .ldST _ => true
  | _ => false

/-- The instruction reads the key vector (R250, R251, R253). -/
def readsKeys : Instr → Bool
  | .skp _ | .sknp _ | .ldKey _ => true
  | _ => false

/-- The instruction reads the random byte (R62). -/
def readsRandom : Instr → Bool
  | .rnd _ _ => true
  | _ => false

/-- A set bit of the `n` sprite bytes at `I`, drawn from `(x0, y0)`, falls on `(px, py)`: bit `7 - b` of byte `j` is
the pixel of column `x0 + b` and row `y0 + j` (R231, R232). -/
def State.spritePixel (s : State) (x0 y0 n px py : Nat) : Prop :=
  ∃ j < n, ∃ b < 8, px = x0 + b ∧ py = y0 + j ∧ (s.M.read (s.indexAddress j)).getLsbD (7 - b) = true

end Sys2Proof.Machine
end

