-- ==== Sys2Proof/Certificates/Slice0/Obligations.lean ====
section
/-! DEFINITION. The statements for the provers, in the order of OBLIGATIONS.json. Each docstring says what is stated and
which rules of spec/ it rests on. -/

open Sys2Proof Sys2Proof.Machine

/-- For every well-formed instruction i, with every operand value: the decoder reads i from the word of i, and from
the two bytes of i followed by any bytes it reads i and leaves those bytes. The encodings are the spec's own decision
D1, log entry 10. (R100, R101, R105, 92_eei_decisions.md D1) -/
def Obligations.DecodeOfEncodeIsIdentity : Prop :=
  ∀ (i : Instr) (rest : List Byte), i.wellFormed = true →
    decode (encode i) = .ok i ∧ decodeBytes (encodeBytes i ++ rest) = .ok (i, rest)

/-- For every word w: if the decoder reads the instruction i from w, then i is well-formed and the word of i is w; so
no bit of a recognized word is dropped. The encodings are the spec's own decision D1, log entry 10. (R100, R101, R105,
92_eei_decisions.md D1) -/
def Obligations.EncodeOfDecodeIsIdentity : Prop :=
  ∀ (w : Word) (i : Instr), decode w = .ok i → i.wellFormed = true ∧ encode i = w

/-- For every word w: an instruction read from w belongs to a row of the opcode table that w matches (w & mask = match
and w no exception); an instruction is read exactly when some row matches; otherwise the answer is unknown(w); and no
two rows of the table match w. The rows and the recognition by full pattern are the spec's own decisions D1 and D3,
log entries 10 and 12. (R105, R106, R107, 92_eei_decisions.md D1, 92_eei_decisions.md D3) -/
def Obligations.DecodeAgreesWithOpcodeTable : Prop :=
  ∀ w : Word,
    (∀ i, decode w = .ok i → i.row ∈ opcodeTable ∧ i.row.matches w = true) ∧
    ((∃ i, decode w = .ok i) ↔ ∃ r ∈ opcodeTable, r.matches w = true) ∧
    (∀ e, decode w = .error e → e = .unknown w) ∧
    (∀ r ∈ opcodeTable, ∀ r' ∈ opcodeTable, r.matches w = true → r'.matches w = true → r = r')

/-- 0x6005, 0xF033 and 0xD005 (shown by the source) and a word of each family written out from the patterns decode to
the instructions they stand for; 0x5121, 0x8008, 0xE19F and 0xFFFF are unknown. The rows but three and the recognition
by full pattern are the spec's own decisions D1 and D3, log entries 10 and 12. (R105, R106, 95_test_vectors.md,
92_eei_decisions.md D1, 92_eei_decisions.md D3) -/
def Obligations.SpecWordsDecodeAsTheirInstructions : Prop :=
  decode 0x6005 = .ok (.ldImm 0 0x05) ∧ decode 0xF033 = .ok (.ldB 0) ∧ decode 0xD005 = .ok (.drw 0 0 5) ∧
    decode 0x0123 = .ok (.sys 0x123) ∧ decode 0x00E0 = .ok .cls ∧ decode 0x00EE = .ok .ret ∧
    decode 0x2ABC = .ok (.call 0xABC) ∧ decode 0x5120 = .ok (.seReg 1 2) ∧ decode 0x8346 = .ok (.shr 3 4) ∧
    decode 0xE2A1 = .ok (.sknp 2) ∧ decode 0xF30A = .ok (.ldKey 3) ∧ decode 0xF165 = .ok (.loadRegs 1) ∧
    decode 0x5121 = .error (.unknown 0x5121) ∧ decode 0x8008 = .error (.unknown 0x8008) ∧
    decode 0xE19F = .error (.unknown 0xE19F) ∧ decode 0xFFFF = .error (.unknown 0xFFFF)

/-- On a machine that is not halted, with pc at most 4094, where the big-endian word at pc decodes to i (no alignment
asked), i is well-formed and the step is: exec of i on the state with pc advanced by 2 (mod 65536) gives some u; if u
is halted the cycle ends with Fatal(fault of u) and no tick; else both timers of u count down by 1 if above 0, and the
outcome is Ok(beep, none) with beep = (ST of u = 1). The cycle's input is used up and the cycle counted (model's own
fields, log entries 1, 2, 7). The form of the outcome and the missing tick of a fatal cycle are the spec's own
decisions D19, D20 and D7, log entry 16. That pc may be odd is the spec's own decision D23, log entry 24. (R87, R133,
R135, R137, R138, R140, R141, 92_eei_decisions.md D7, 92_eei_decisions.md D19, 92_eei_decisions.md D20,
92_eei_decisions.md D23) -/
def Obligations.StepRunsDecodedInstruction : Prop :=
  ∀ (s : State) (i : Instr), s.halted = false → s.pc.toNat ≤ 4094 → decode s.wordAtPc = .ok i →
    i.wellFormed = true ∧ ∃ u, exec i { s with pc := s.pc + 2 } = .next u ∧
      step s = .next
        (if u.halted then
          { u with inputs := u.inputs.tail, cycleNo := u.cycleNo + 1, outcome := u.fault.map CycleOutcome.fatal }
        else
          { u with
            DT := if u.DT = 0 then 0 else u.DT - 1
            ST := if u.ST = 0 then 0 else u.ST - 1
            inputs := u.inputs.tail
            cycleNo := u.cycleNo + 1
            outcome := some (.ok (decide (u.ST = 1)) none) })

/-- On a machine that is not halted, with pc at most 4094, where the word w at pc is unknown: of the block's state the
step changes nothing but pc (plus 2) and the timers (one tick), it does not halt, and its outcome is Ok(beep,
Unknown(w)). The cycle's input is used up, the cycle is counted and the outcome is recorded in the model's own fields
(log entries 1, 2, 7). The form of the outcome is the spec's own decisions D19 and D20, log entry 16. That pc may be
odd is the spec's own decision D23, log entry 24. (R108, R133, R137, R138, R307, 92_eei_decisions.md D19,
92_eei_decisions.md D20, 92_eei_decisions.md D23) -/
def Obligations.UnknownWordOnlyAdvancesAndTicks : Prop :=
  ∀ (s : State) (e : DecodeError), s.halted = false → s.pc.toNat ≤ 4094 → decode s.wordAtPc = .error e →
    step s = .next
      { s with
        pc := s.pc + 2
        DT := if s.DT = 0 then 0 else s.DT - 1
        ST := if s.ST = 0 then 0 else s.ST - 1
        inputs := s.inputs.tail
        cycleNo := s.cycleNo + 1
        outcome := some (.ok (decide (s.ST = 1)) (some s.wordAtPc)) }

/-- With pc at most 4094 the fetch gives M[pc] * 256 + M[pc + 1]. On a machine that is not halted, with pc at or above
4096 the step halts with AddressOutOfRange(pc), with pc = 4095 with AddressOutOfRange(4096); pc keeps the failing
address, no timer ticks and nothing else of the block's state changes. The cycle's input is used up, the cycle is
counted and the outcome is recorded in the model's own fields (log entries 1, 2, 7). That the address is exact and
that pc keeps it are the spec's own decisions D5 and D26, log entries 14 and 20; the missing tick and the halt record
are its decision D7, log entry 16. That pc may be odd is the spec's own decision D23, log entry 24. (R132, R140,
92_eei_decisions.md D5, 92_eei_decisions.md D7, 92_eei_decisions.md D23, 92_eei_decisions.md D26) -/
def Obligations.FetchReadsBigEndianOrFaults : Prop :=
  ∀ s : State,
    (s.pc.toNat ≤ 4094 → ∃ w, s.fetch = .ok w ∧
      w.toNat = (s.M.read s.pc.toNat).toNat * 256 + (s.M.read (s.pc.toNat + 1)).toNat) ∧
    (s.halted = false → 4095 ≤ s.pc.toNat → ∃ a, a = (if s.pc.toNat = 4095 then 4096 else s.pc.toNat) ∧
      step s = .next
        { s with
          halted := true
          fault := some (.addressOutOfRange a)
          inputs := s.inputs.tail
          cycleNo := s.cycleNo + 1
          outcome := some (.fatal (.addressOutOfRange a)) })

/-- For every number k of cycles: on a machine halted with fault f, after k + 1 cycles every field of the block is as
it was and the outcome is Fatal(f); only the model's own input list and cycle counter move on and its outcome field is
written (log entries 1, 2, 7, 9). That a halted machine stays so is the spec's own decision D7. (R131,
92_eei_decisions.md D7) -/
def Obligations.HaltedMachineStaysAsItIs : Prop :=
  ∀ (k : Nat) (s : State) (f : Fault), s.halted = true → s.fault = some f →
    runCycles (k + 1) s = .next
      { s with
        inputs := s.inputs.drop (k + 1)
        cycleNo := s.cycleNo + (k + 1)
        outcome := some (.fatal f) }

/-- Every instruction answers a next state from every state, and so does every step: a fatal error is a next state
that records it, an unknown word completes its cycle. (That a fatal error is a next state is the model's form of R140,
log entry 6.) (R130, R134, R140) -/
def Obligations.EveryStepAnswersNextState : Prop :=
  (∀ (i : Instr) (s : State), ∃ t, exec i s = .next t) ∧ ∀ s : State, ∃ t, step s = .next t

/-- From a state that is not halted: where the rules R300 to R305 give the instruction a fatal error f (lowest failing
address, address of the CALL or RET, key index above 15), exec answers the state with halted set and f recorded and
nothing else changed; where they give none, exec answers a state that is not halted, with the fault record as it was.
The recorded values, the absence of partial effects and the fault of a write to the font are the spec's own decisions
D21, D6 and D8, log entries 20, 15 and 17. The halt record of a fatal error is the spec's own decision D7, log entry
16. (R15, R300, R301, R302, R303, R304, R305, R309, R311, 92_eei_decisions.md D6, D7, D8, D21) -/
def Obligations.FatalErrorsAreRaisedExactlyAndPrecisely : Prop :=
  ∀ (i : Instr) (s : State), s.halted = false →
    (∀ f, raisedBy i s = some f → exec i s = .next { s with halted := true, fault := some f }) ∧
    (raisedBy i s = none → ∃ t, exec i s = .next t ∧ t.halted = false ∧ t.fault = s.fault)

/-- On a machine that is not halted, where the instruction decoded at pc raises f: the step keeps the advance of pc by
2, sets halted and fault, changes nothing else of the block's state (no tick, nothing of the instruction), and its
outcome is Fatal(f). The cycle's input is used up, the cycle is counted and the outcome is recorded in the model's own
fields (log entries 1, 2, 7). The missing tick and the kept advance are the spec's own decision D7, log entry 16; that
nothing of the instruction stays is its decision D6, log entry 15; the recorded values and the fault of a write to the
font are its decisions D21 and D8, log entries 20 and 17. That pc may be odd is the spec's own decision D23, log entry
24. (R133, R140, R311, 92_eei_decisions.md D6, 92_eei_decisions.md D7, 92_eei_decisions.md D8, 92_eei_decisions.md
D21, 92_eei_decisions.md D23) -/
def Obligations.FatalCycleKeepsAdvanceOnly : Prop :=
  ∀ (s : State) (i : Instr) (f : Fault), s.halted = false → s.pc.toNat ≤ 4094 → decode s.wordAtPc = .ok i →
    raisedBy i { s with pc := s.pc + 2 } = some f →
    step s = .next
      { s with
        pc := s.pc + 2
        halted := true
        fault := some f
        inputs := s.inputs.tail
        cycleNo := s.cycleNo + 1
        outcome := some (.fatal f) }

/-- For every instruction and state: a register that the table of R32 does not name for the instruction is unchanged;
and LD Vx, K changes no register when no key is held. The table is the spec's own derivation from the instruction
rules. (R32) -/
def Obligations.OnlyTableInstructionsWriteRegisters : Prop :=
  ∀ (i : Instr) (s t : State), exec i s = .next t →
    (∀ r : Reg, ¬ writesReg i r → t.V[r] = s.V[r]) ∧
    (∀ x, i = .ldKey x → (∀ k : Fin 16, s.keys[k] = false) → t.V = s.V)

/-- For every instruction: I changes only by LD I, ADD I and LD F; S only by CALL, SP only by CALL and RET; DT only by
LD DT, ST only by LD ST; the display only by CLS and DRW; memory only by LD B and LD [I], and there only at addresses
I to I + 2 or I to I + x; no instruction changes the input list, the cycle counter or the outcome (the model's own
fields, log entries 1, 2, 7). (R34, R40, R43, R44, R73) -/
def Obligations.OnlyNamedInstructionsWriteOtherState : Prop :=
  ∀ (i : Instr) (s t : State), exec i s = .next t →
    (writesI i = false → t.I = s.I) ∧
    ((∀ nnn, i ≠ .call nnn) → t.S = s.S) ∧
    ((∀ nnn, i ≠ .call nnn) → i ≠ .ret → t.SP = s.SP) ∧
    (writesDT i = false → t.DT = s.DT) ∧
    (writesST i = false → t.ST = s.ST) ∧
    (writesDisplay i = false → t.P = s.P) ∧
    (writesMemory i = false → t.M = s.M) ∧
    (∀ x a, i = .ldB x → (a < s.indexAddress 0 ∨ s.indexAddress 0 + 3 ≤ a) → t.M.read a = s.M.read a) ∧
    (∀ x a, i = .storeRegs x → (a < s.indexAddress 0 ∨ s.indexAddress 0 + (x.val + 1) ≤ a) →
      t.M.read a = s.M.read a) ∧
    t.inputs = s.inputs ∧ t.cycleNo = s.cycleNo ∧ t.outcome = s.outcome

/-- For every instruction: pc becomes nnn for JP, nnn for CALL with SP below 16 (unchanged with SP = 16, where it
overflows), nnn + V[0] for JP V0, the popped entry for RET (unchanged when it underflows), pc or pc + 2 for the skips,
pc or pc - 2 for LD Vx, K, and is unchanged for every other instruction. When a skip is taken and when LD Vx, K
rewinds is not said here but in RegisterSkipsAddTwoWhenConditionHolds, KeySkipsFollowTheKeyOrFault and
WaitForKeyRewindsOrLoadsLowestKey. (R36) -/
def Obligations.PcChangesOnlyAsRuled : Prop :=
  ∀ (i : Instr) (s t : State), exec i s = .next t →
    match i with
    | .jp nnn => t.pc.toNat = nnn.toNat
    | .call nnn => (s.SP.val < 16 → t.pc.toNat = nnn.toNat) ∧ (s.SP.val = 16 → t.pc = s.pc)
    | .jpV0 nnn => t.pc.toNat = nnn.toNat + s.V[0].toNat
    | .ret => (∃ h : 0 < s.SP.val, t.pc = s.S[s.SP.val - 1]'(by omega)) ∨ (s.SP.val = 0 ∧ t.pc = s.pc)
    | .seImm _ _ | .sneImm _ _ | .seReg _ _ | .sneReg _ _ | .skp _ | .sknp _ => t.pc = s.pc ∨ t.pc = s.pc + 2
    | .ldKey _ => t.pc = s.pc ∨ t.pc = s.pc - 2
    | _ => t.pc = s.pc

/-- For every instruction other than RND: run on two states that differ in the random byte supplied for the cycle
only, it gives the same result up to that byte. (R62) -/
def Obligations.RandomByteIsReadOnlyByRnd : Prop :=
  ∀ (i : Instr) (s t : State) (K : Vector Bool 16) (r r' : Byte) (rest : List CycleInput), readsRandom i = false →
    exec i { s with inputs := { K := K, r := r } :: rest } = .next t →
    exec i { s with inputs := { K := K, r := r' } :: rest } =
      .next { t with inputs := { K := K, r := r' } :: rest }

/-- For every other instruction: run on two states that differ in the key vector supplied for the cycle only, it gives
the same result up to that vector. (R61, R250, R251, R253) -/
def Obligations.KeysAreReadOnlyByKeyInstructions : Prop :=
  ∀ (i : Instr) (s t : State) (K K' : Vector Bool 16) (r : Byte) (rest : List CycleInput), readsKeys i = false →
    exec i { s with inputs := { K := K, r := r } :: rest } = .next t →
    exec i { s with inputs := { K := K', r := r } :: rest } =
      .next { t with inputs := { K := K', r := r } :: rest }

/-- SYS nnn completes from every state and changes nothing at all. That SYS has no effect is the spec's own decision
D2, log entry 11. (R160, 92_eei_decisions.md D2) -/
def Obligations.SysHasNoEffect : Prop :=
  ∀ (nnn : BitVec 12) (s : State), exec (.sys nnn) s = .next s

/-- JP nnn completes from every state with pc = nnn; JP V0, nnn with pc = nnn + V[0] as an exact sum, never reduced;
nothing else changes. That no address is reduced modulo 4096 is the spec's own decision D5, log entry 14. (R162, R168,
92_eei_decisions.md D5) -/
def Obligations.JumpsSetPcExactly : Prop :=
  ∀ (nnn : BitVec 12) (s : State),
    (∃ t, exec (.jp nnn) s = .next t ∧ t.pc.toNat = nnn.toNat ∧ t = { s with pc := t.pc }) ∧
    (∃ t, exec (.jpV0 nnn) s = .next t ∧ t.pc.toNat = nnn.toNat + s.V[0].toNat ∧ t = { s with pc := t.pc })

/-- CALL nnn with SP below 16 stores pc (the address of the CALL plus 2) at S[SP], raises SP by 1 and sets pc to nnn,
and changes nothing else; with SP = 16 it halts with StackOverflow(pc - 2) and changes nothing else. The recorded
address is the spec's own decision D21, log entry 20. The halt record of a fatal error is the spec's own decision D7,
log entry 16. (R163, 92_eei_decisions.md D7, 92_eei_decisions.md D21) -/
def Obligations.CallPushesReturnAddressOrOverflows : Prop :=
  ∀ (nnn : BitVec 12) (s : State),
    (∀ h : s.SP.val < 16, ∃ t, exec (.call nnn) s = .next t ∧ t.pc.toNat = nnn.toNat ∧ t.SP.val = s.SP.val + 1 ∧
      t.S = s.S.set s.SP.val s.pc ∧ t = { s with pc := t.pc, SP := t.SP, S := t.S }) ∧
    (s.SP.val = 16 →
      exec (.call nnn) s = .next { s with halted := true, fault := some (.stackOverflow (s.pc - 2)) })

/-- RET with SP above 0 lowers SP by 1 and sets pc to the entry S[SP] there, leaves the entry in place and changes
nothing else; with SP = 0 it halts with StackUnderflow(pc - 2) and changes nothing else. The recorded address is the
spec's own decision D21, log entry 20. The halt record of a fatal error is the spec's own decision D7, log entry 16.
(R161, 92_eei_decisions.md D7, 92_eei_decisions.md D21) -/
def Obligations.RetPopsReturnAddressOrUnderflows : Prop :=
  ∀ s : State,
    (∀ h : 0 < s.SP.val, ∃ t, exec .ret s = .next t ∧ t.SP.val = s.SP.val - 1 ∧
      t.pc = s.S[s.SP.val - 1]'(by omega) ∧ t = { s with pc := t.pc, SP := t.SP }) ∧
    (s.SP.val = 0 → exec .ret s = .next { s with halted := true, fault := some (.stackUnderflow (s.pc - 2)) })

/-- SE Vx, kk skips when V[x] = kk, SNE Vx, kk when V[x] differs from kk, SE Vx, Vy when V[x] = V[y], SNE Vx, Vy when
they differ: pc becomes pc + 2 (mod 65536) on a skip and nothing else ever changes; all four complete from every
state. (R164, R165, R166, R167) -/
def Obligations.RegisterSkipsAddTwoWhenConditionHolds : Prop :=
  ∀ (x y : Reg) (kk : Byte) (s : State),
    exec (.seImm x kk) s = .next { s with pc := if s.V[x].toNat = kk.toNat then s.pc + 2 else s.pc } ∧
    exec (.sneImm x kk) s = .next { s with pc := if s.V[x].toNat = kk.toNat then s.pc else s.pc + 2 } ∧
    exec (.seReg x y) s = .next { s with pc := if s.V[x].toNat = s.V[y].toNat then s.pc + 2 else s.pc } ∧
    exec (.sneReg x y) s = .next { s with pc := if s.V[x].toNat = s.V[y].toNat then s.pc else s.pc + 2 }

/-- On a machine that is not halted, with pc at most 4094 and SP below 16, where a CALL nnn stands at pc and a RET at
nnn (at most 4094): after two cycles pc is the old pc plus 2, SP is as before and the machine is not halted; V, I,
memory and the display are unchanged. That pc may be odd is the spec's own decision D23, log entry 24. (R161, R163,
95_test_vectors.md W4, 92_eei_decisions.md D23) -/
def Obligations.CallThenRetComesBack : Prop :=
  ∀ (s : State) (nnn : BitVec 12), s.halted = false → s.pc.toNat ≤ 4094 → s.SP.val < 16 → nnn.toNat ≤ 4094 →
    decode s.wordAtPc = .ok (.call nnn) →
    decode (wordOfBytes (s.M.read nnn.toNat) (s.M.read (nnn.toNat + 1))) = .ok .ret →
    ∃ t, runCycles 2 s = .next t ∧ t.pc = s.pc + 2 ∧ t.SP = s.SP ∧ t.halted = false ∧
      t.V = s.V ∧ t.I = s.I ∧ t.M = s.M ∧ t.P = s.P

/-- LD Vx, kk sets V[x] to kk; LD Vx, Vy to V[y]; ADD Vx, kk to (V[x] + kk) mod 256; each completes from every state
and changes no other register (VF included, unless x = F) and nothing else. (R190, R191, R192) -/
def Obligations.LoadsAndAddImmediateTouchNoFlag : Prop :=
  ∀ (x y : Reg) (kk : Byte) (s : State),
    (∃ t, exec (.ldImm x kk) s = .next t ∧ t.V[x] = kk ∧ s.changesOnlyV t x) ∧
    (∃ t, exec (.ldReg x y) s = .next t ∧ t.V[x] = s.V[y] ∧ s.changesOnlyV t x) ∧
    (∃ t, exec (.addImm x kk) s = .next t ∧ t.V[x].toNat = (s.V[x].toNat + kk.toNat) % 256 ∧ s.changesOnlyV t x)

/-- For each bit b of V[x] after OR, AND or XOR: it is the or, and or xor of bit b of V[x] and of V[y] before; each
completes from every state and changes no other register (VF included, unless x = F) and nothing else. (R193, R194,
R195) -/
def Obligations.BitwiseOperationsCombineBits : Prop :=
  ∀ (x y : Reg) (s : State),
    (∃ t, exec (.orReg x y) s = .next t ∧ s.changesOnlyV t x ∧
      ∀ b < 8, t.V[x].getLsbD b = (s.V[x].getLsbD b || s.V[y].getLsbD b)) ∧
    (∃ t, exec (.andReg x y) s = .next t ∧ s.changesOnlyV t x ∧
      ∀ b < 8, t.V[x].getLsbD b = (s.V[x].getLsbD b && s.V[y].getLsbD b)) ∧
    (∃ t, exec (.xorReg x y) s = .next t ∧ s.changesOnlyV t x ∧
      ∀ b < 8, t.V[x].getLsbD b = (s.V[x].getLsbD b ^^ s.V[y].getLsbD b))

/-- ADD Vx, Vy completes from every state: VF is 1 when the exact sum of the two old values exceeds 255, else 0, also
when x = F; V[x] is the sum mod 256 when x is not F; nothing else changes. (R196) -/
def Obligations.AddRegistersSetsSumAndCarry : Prop :=
  ∀ (x y : Reg) (s : State), ∃ t, exec (.addReg x y) s = .next t ∧
    (x ≠ VF → t.V[x].toNat = (s.V[x].toNat + s.V[y].toNat) % 256) ∧
    t.V[VF].toNat = (if s.V[x].toNat + s.V[y].toNat > 255 then 1 else 0) ∧
    s.changesOnlyVFlag t x

/-- SUB Vx, Vy stores (V[x] - V[y]) mod 256 and sets VF to 1 when V[x] > V[y], else 0 (equal operands give 0); SUBN
Vx, Vy stores (V[y] - V[x]) mod 256 and sets VF to 1 when V[y] > V[x]; VF is written last, also when x = F; both
complete from every state and change nothing else. (R197, R199) -/
def Obligations.SubtractionsFlagStrictComparison : Prop :=
  ∀ (x y : Reg) (s : State),
    (∃ t, exec (.subReg x y) s = .next t ∧
      (x ≠ VF → t.V[x].toNat = (256 + s.V[x].toNat - s.V[y].toNat) % 256) ∧
      t.V[VF].toNat = (if s.V[x].toNat > s.V[y].toNat then 1 else 0) ∧ s.changesOnlyVFlag t x) ∧
    (∃ t, exec (.subnReg x y) s = .next t ∧
      (x ≠ VF → t.V[x].toNat = (256 + s.V[y].toNat - s.V[x].toNat) % 256) ∧
      t.V[VF].toNat = (if s.V[y].toNat > s.V[x].toNat then 1 else 0) ∧ s.changesOnlyVFlag t x)

/-- SHR Vx stores V[x] / 2 and sets VF to the old bit 0; SHL Vx stores (2 * V[x]) mod 256 and sets VF to the old bit
7; for every y field; VF is written last, also when x = F; both complete from every state and change nothing else.
That V[x] is the operand and y is ignored is the spec's own decision D4, log entry 13. (R198, R200,
92_eei_decisions.md D4) -/
def Obligations.ShiftsMoveVxAndFlagTheBitShiftedOut : Prop :=
  ∀ (x y : Reg) (s : State),
    (∃ t, exec (.shr x y) s = .next t ∧ (x ≠ VF → t.V[x].toNat = s.V[x].toNat / 2) ∧
      t.V[VF].toNat = s.V[x].toNat % 2 ∧ s.changesOnlyVFlag t x) ∧
    (∃ t, exec (.shl x y) s = .next t ∧ (x ≠ VF → t.V[x].toNat = 2 * s.V[x].toNat % 256) ∧
      t.V[VF].toNat = s.V[x].toNat / 128 ∧ s.changesOnlyVFlag t x)

/-- RND Vx, kk completes from every state: each bit b of V[x] is the and of bit b of the cycle's random byte and of
kk, whatever that byte is; nothing else changes. That the random byte is a free input of the cycle is the spec's own
decision D17, log entry 1. (R201, 92_eei_decisions.md D17) -/
def Obligations.RndMasksTheCyclesRandomByte : Prop :=
  ∀ (x : Reg) (kk : Byte) (s : State), ∃ t, exec (.rnd x kk) s = .next t ∧ s.changesOnlyV t x ∧
    ∀ b < 8, t.V[x].getLsbD b = (s.random.getLsbD b && kk.getLsbD b)

/-- CLS completes from every state: every pixel of the 64 x 32 grid is off; no register (VF included), no memory and
nothing else changes. (R230) -/
def Obligations.ClsTurnsEveryPixelOff : Prop :=
  ∀ s : State, ∃ t, exec .cls s = .next t ∧ (∀ x < 64, ∀ y < 32, t.P.get x y = false) ∧ t = { s with P := t.P }

/-- DRW Vx, Vy, n whose n sprite bytes at I all lie below 4096 (or n = 0) completes: with x0 = V[x] mod 64 and y0 =
V[y] mod 32 read before VF is written, every pixel of the grid is flipped exactly when a set sprite bit falls on it
(no per-pixel wrap); VF is 1 when some set bit falls on a pixel of the grid that was on, else 0; no other register and
nothing else changes. Otherwise it halts with AddressOutOfRange of the lowest missing address and changes nothing
else. The bit order, the order of the reads, the reading of clipped rows and the absence of partial effects are the
spec's own decisions D11, D13, D14 and D6, log entries 15, 18 and 19. The halt record of a fatal error is the spec's
own decision D7, log entry 16. (R231, 92_eei_decisions.md D6, 92_eei_decisions.md D7, 92_eei_decisions.md D11,
92_eei_decisions.md D13, 92_eei_decisions.md D14) -/
def Obligations.DrwXorsTheSpriteAndFlagsCollision : Prop :=
  ∀ (x y : Reg) (n : Fin 16) (s : State),
    ((n.val = 0 ∨ s.I.toNat + n.val ≤ 4096) → ∃ t, exec (.drw x y n) s = .next t ∧
      (∀ px < 64, ∀ py < 32, (t.P.get px py = true ↔
        Xor (s.P.get px py = true) (s.spritePixel (s.V[x].toNat % 64) (s.V[y].toNat % 32) n.val px py))) ∧
      (t.V[VF].toNat = 1 ↔ ∃ px < 64, ∃ py < 32, s.P.get px py = true ∧
        s.spritePixel (s.V[x].toNat % 64) (s.V[y].toNat % 32) n.val px py) ∧
      (t.V[VF].toNat = 0 ∨ t.V[VF].toNat = 1) ∧
      (∀ r : Reg, r ≠ VF → t.V[r] = s.V[r]) ∧
      t = { s with V := t.V, P := t.P }) ∧
    (n.val ≠ 0 → 4096 < s.I.toNat + n.val → exec (.drw x y n) s =
      .next { s with halted := true, fault := some (.addressOutOfRange (max s.I.toNat 4096)) })

/-- Let DRW Vx, Vy, n run without a fault from s to t, and again from a state s2 with the same V[x], V[y], I and
sprite bytes and the display t left: the second draw leaves the display of s; it sets VF to 1 exactly when the first
turned at least one pixel on, and to 0 exactly when the first turned none on. The law is the spec's own derivation,
its correction of the source (C3). (R235, 90_conflicts.md C3) -/
def Obligations.DrawingTwiceRestoresTheDisplay : Prop :=
  ∀ (x y : Reg) (n : Fin 16) (s t s2 t2 : State), (n.val = 0 ∨ s.I.toNat + n.val ≤ 4096) →
    exec (.drw x y n) s = .next t →
    s2.V[x] = s.V[x] → s2.V[y] = s.V[y] → s2.I = s.I → s2.P = t.P →
    (∀ j < n.val, s2.M.read (s2.indexAddress j) = s.M.read (s.indexAddress j)) →
    exec (.drw x y n) s2 = .next t2 →
    t2.P = s.P ∧
    (t2.V[VF].toNat = 1 ↔ ∃ px < 64, ∃ py < 32, s.P.get px py = false ∧ t.P.get px py = true) ∧
    (t2.V[VF].toNat = 0 ↔ ∀ px < 64, ∀ py < 32, s.P.get px py = false → t.P.get px py = false)

/-- For every state and every pixel of the grid: the exposed sequence has length 2048 and its element y * 64 + x is
the pixel of column x and row y. The order is the spec's own decision D12, log entry 18. (R63, 92_eei_decisions.md
D12) -/
def Obligations.DisplayOutputIsRowMajor : Prop :=
  ∀ s : State, s.displayOutput.length = 2048 ∧
    ∀ x < 64, ∀ y < 32, s.displayOutput[y * 64 + x]? = some (s.P.get x y)

/-- With V[x] at most 15, SKP adds 2 to pc when key V[x] is held, SKNP when it is not, and nothing else changes; with
V[x] above 15 both halt with KeyIndexOutOfRange(V[x]) and change nothing else. The recorded value is the spec's own
decision D21, log entry 20. The halt record of a fatal error is the spec's own decision D7, log entry 16. (R250, R251,
R256, 92_eei_decisions.md D7, 92_eei_decisions.md D21) -/
def Obligations.KeySkipsFollowTheKeyOrFault : Prop :=
  ∀ (x : Reg) (s : State),
    (∀ h : s.V[x].toNat < 16,
      exec (.skp x) s = .next { s with pc := if s.keys[s.V[x].toNat] = true then s.pc + 2 else s.pc } ∧
      exec (.sknp x) s = .next { s with pc := if s.keys[s.V[x].toNat] = true then s.pc else s.pc + 2 }) ∧
    (15 < s.V[x].toNat →
      exec (.skp x) s = .next { s with halted := true, fault := some (.keyIndexOutOfRange s.V[x]) } ∧
      exec (.sknp x) s = .next { s with halted := true, fault := some (.keyIndexOutOfRange s.V[x]) })

/-- With no key held LD Vx, K sets pc to pc - 2 and changes nothing else; with key k held and no lower key held it
completes with V[x] = k, changes no other register and nothing else (pc goes on). (R253) -/
def Obligations.WaitForKeyRewindsOrLoadsLowestKey : Prop :=
  ∀ (x : Reg) (s : State),
    ((∀ i : Fin 16, s.keys[i] = false) → exec (.ldKey x) s = .next { s with pc := s.pc - 2 }) ∧
    (∀ k : Fin 16, s.keys[k] = true → (∀ i : Fin 16, i < k → s.keys[i] = false) →
      ∃ t, exec (.ldKey x) s = .next t ∧ t.V[x].toNat = k.val ∧ s.changesOnlyV t x)

/-- On a machine that is not halted, with pc at most 4094, where LD Vx, K stands at pc and the cycle's key vector has
no key held: the step changes nothing but the timers (one tick) and the model's own fields (log entries 1, 2, 7). The
beep in the outcome is the spec's own decision D19, log entry 16. That pc may be odd is the spec's own decision D23,
log entry 24. (R137, R253, 95_test_vectors.md W8, 92_eei_decisions.md D19, 92_eei_decisions.md D23) -/
def Obligations.WaitForKeyCycleKeepsPcAndTicks : Prop :=
  ∀ (s : State) (x : Reg), s.halted = false → s.pc.toNat ≤ 4094 → decode s.wordAtPc = .ok (.ldKey x) →
    (∀ i : Fin 16, s.keys[i] = false) →
    step s = .next
      { s with
        DT := if s.DT = 0 then 0 else s.DT - 1
        ST := if s.ST = 0 then 0 else s.ST - 1
        inputs := s.inputs.tail
        cycleNo := s.cycleNo + 1
        outcome := some (.ok (decide (s.ST = 1)) none) }

/-- LD Vx, DT sets V[x] to DT (before the tick); LD DT, Vx sets DT to V[x]; LD ST, Vx sets ST to V[x]; each completes
from every state and changes nothing else in its execute stage. (R252, R254, R255) -/
def Obligations.TimerMovesCopyTheirRegister : Prop :=
  ∀ (x : Reg) (s : State),
    (∃ t, exec (.ldFromDT x) s = .next t ∧ t.V[x] = s.DT ∧ s.changesOnlyV t x) ∧
    exec (.ldDT x) s = .next { s with DT := s.V[x] } ∧
    exec (.ldST x) s = .next { s with ST := s.V[x] }

/-- On a machine that is not halted, with pc at most 4094: where LD DT, Vx stands at pc, DT after the step is V[x] -
1, and 0 when V[x] = 0; where LD ST, Vx stands there, ST after the step is V[x] - 1 or 0, and the cycle beeps exactly
when V[x] = 1. The beep in the outcome is the spec's own decision D19, log entry 16. That pc may be odd is the spec's
own decision D23, log entry 24. (R137, R254, R255, R351, 92_eei_decisions.md D19, 92_eei_decisions.md D23) -/
def Obligations.TimerWritesTickInTheirOwnCycle : Prop :=
  ∀ (s : State) (x : Reg), s.halted = false → s.pc.toNat ≤ 4094 →
    (decode s.wordAtPc = .ok (.ldDT x) →
      ∃ t, step s = .next t ∧ t.DT.toNat = s.V[x].toNat - 1 ∧ t.halted = false) ∧
    (decode s.wordAtPc = .ok (.ldST x) →
      ∃ t, step s = .next t ∧ t.ST.toNat = s.V[x].toNat - 1 ∧ t.halted = false ∧
        t.outcome = some (.ok (decide (s.V[x].toNat = 1)) none))

/-- Let no cycle of a run of k + 1 cycles from s start halted or run LD ST, and let the last of them not halt: ST has
counted down by k + 1 (never below 0), and the last cycle beeps exactly when ST was k + 1 at s. So a timer at v beeps
in the v-th cycle and in no other. The beep in the outcome is the spec's own decision D19, log entry 16. (R137, R320,
R321, 92_eei_decisions.md D19) -/
def Obligations.SoundTimerBeepsOnceInItsCycle : Prop :=
  ∀ (k : Nat) (s t : State), runCycles (k + 1) s = .next t → t.halted = false →
    (∀ j ≤ k, ∀ u, runCycles j s = .next u → u.halted = false ∧ ∀ x, decode u.wordAtPc ≠ .ok (.ldST x)) →
    t.ST.toNat = s.ST.toNat - (k + 1) ∧ ∃ diag, t.outcome = some (.ok (decide (s.ST.toNat = k + 1)) diag)

/-- LD I, nnn sets I to nnn; ADD I, Vx to (I + V[x]) mod 65536; LD F, Vx to 0x050 + 5 * V[x], not masked; each
completes from every state and changes nothing else (VF included). The reduction modulo 65536 is the spec's own
decision D5, log entry 14. (R271, R272, R273, 92_eei_decisions.md D5) -/
def Obligations.IndexInstructionsSetI : Prop :=
  ∀ (x : Reg) (nnn : BitVec 12) (s : State),
    (∃ t, exec (.ldI nnn) s = .next t ∧ t.I.toNat = nnn.toNat ∧ t = { s with I := t.I }) ∧
    (∃ t, exec (.addI x) s = .next t ∧ t.I.toNat = (s.I.toNat + s.V[x].toNat) % 65536 ∧ t = { s with I := t.I }) ∧
    (∃ t, exec (.ldF x) s = .next t ∧ t.I.toNat = 0x050 + 5 * s.V[x].toNat ∧ t = { s with I := t.I })

/-- For every byte v: the digits stored by LD B are h, t, o with h at most 2, t and o at most 9, and 100 h + 10 t + o
= v. The rule is the spec's own derivation from R274. (R275) -/
def Obligations.BcdDigitsStandForTheByte : Prop :=
  ∀ v : Byte, ∃ h t o : Byte, bcdDigits v = [h, t, o] ∧ h.toNat ≤ 2 ∧ t.toNat ≤ 9 ∧ o.toNat ≤ 9 ∧
    100 * h.toNat + 10 * t.toNat + o.toNat = v.toNat

/-- In a state whose memory is in canonical form: LD B, Vx with I + 2 below 4096 and none of the three addresses in
the font completes, the bytes at I, I + 1, I + 2 are V[x] / 100, (V[x] / 10) mod 10 and V[x] mod 10, every other byte
reads as before, and nothing but memory changes. With I + 2 at or above 4096 it halts with AddressOutOfRange of the
lowest missing address; with an address in the font it halts with FontRegionWrite of the lowest such address; then
nothing else changes. That a fault writes nothing, that the font faults and the recorded address are the spec's own
decisions D6, D8 and D21, log entries 15, 17 and 20. The halt record of a fatal error is the spec's own decision D7,
log entry 16. (R274, 92_eei_decisions.md D6, 92_eei_decisions.md D7, 92_eei_decisions.md D8, 92_eei_decisions.md D21)
-/
def Obligations.StoreBcdWritesThreeDigitsOrFaults : Prop :=
  ∀ (x : Reg) (s : State), s.M.wf = true →
    (s.indexAddress 0 + 3 ≤ 4096 → (s.indexAddress 0 + 3 ≤ 0x050 ∨ 0x09F < s.indexAddress 0) →
      ∃ t, exec (.ldB x) s = .next t ∧
        (t.M.read (s.indexAddress 0)).toNat = s.V[x].toNat / 100 ∧
        (t.M.read (s.indexAddress 1)).toNat = s.V[x].toNat / 10 % 10 ∧
        (t.M.read (s.indexAddress 2)).toNat = s.V[x].toNat % 10 ∧
        (∀ a, (a < s.indexAddress 0 ∨ s.indexAddress 0 + 3 ≤ a) → t.M.read a = s.M.read a) ∧
        t = { s with M := t.M }) ∧
    (4096 < s.indexAddress 0 + 3 → exec (.ldB x) s =
      .next { s with halted := true, fault := some (.addressOutOfRange (max (s.indexAddress 0) 4096)) }) ∧
    (0x050 < s.indexAddress 0 + 3 → s.indexAddress 0 ≤ 0x09F → exec (.ldB x) s =
      .next { s with halted := true, fault := some (.fontRegionWrite (max (s.indexAddress 0) 0x050)) })

/-- In a state whose memory is in canonical form: LD [I], Vx with I + x below 4096 and no address of I to I + x in the
font completes, the byte at I + j is V[j] for every j up to x, every other byte reads as before, and nothing but
memory changes (I included). With I + x at or above 4096 it halts with AddressOutOfRange of the lowest missing
address; with an address in the font with FontRegionWrite of the lowest such address; then nothing else changes. That
a fault writes nothing, that the font faults, the recorded address and the unchanged I are the spec's own decisions
D6, D8, D21 and D25, log entries 15, 17, 20 and 24. The halt record of a fatal error is the spec's own decision D7,
log entry 16. (R276, 92_eei_decisions.md D6, 92_eei_decisions.md D7, 92_eei_decisions.md D8, 92_eei_decisions.md D21,
92_eei_decisions.md D25) -/
def Obligations.RegisterDumpStoresV0ToVxOrFaults : Prop :=
  ∀ (x : Reg) (s : State), s.M.wf = true →
    (s.indexAddress 0 + (x.val + 1) ≤ 4096 →
      (s.indexAddress 0 + (x.val + 1) ≤ 0x050 ∨ 0x09F < s.indexAddress 0) →
      ∃ t, exec (.storeRegs x) s = .next t ∧
        (∀ j : Reg, j ≤ x → t.M.read (s.indexAddress j.val) = s.V[j]) ∧
        (∀ a, (a < s.indexAddress 0 ∨ s.indexAddress 0 + (x.val + 1) ≤ a) → t.M.read a = s.M.read a) ∧
        t = { s with M := t.M }) ∧
    (4096 < s.indexAddress 0 + (x.val + 1) → exec (.storeRegs x) s =
      .next { s with halted := true, fault := some (.addressOutOfRange (max (s.indexAddress 0) 4096)) }) ∧
    (0x050 < s.indexAddress 0 + (x.val + 1) → s.indexAddress 0 ≤ 0x09F → exec (.storeRegs x) s =
      .next { s with halted := true, fault := some (.fontRegionWrite (max (s.indexAddress 0) 0x050)) })

/-- LD Vx, [I] with I + x below 4096 completes: V[j] is the byte at I + j for every j up to x, every register above x
is unchanged, and nothing but V changes (I and memory included; the font may be read). With I + x at or above 4096 it
halts with AddressOutOfRange of the lowest missing address and nothing else changes. That a fault loads nothing, the
recorded address and the unchanged I are the spec's own decisions D6, D21 and D25, log entries 15, 20 and 24. The halt
record of a fatal error is the spec's own decision D7, log entry 16. (R277, 92_eei_decisions.md D6,
92_eei_decisions.md D7, 92_eei_decisions.md D21, 92_eei_decisions.md D25) -/
def Obligations.RegisterLoadReadsV0ToVxOrFaults : Prop :=
  ∀ (x : Reg) (s : State),
    (s.indexAddress 0 + (x.val + 1) ≤ 4096 → ∃ t, exec (.loadRegs x) s = .next t ∧
      (∀ j : Reg, j ≤ x → t.V[j] = s.M.read (s.indexAddress j.val)) ∧
      (∀ j : Reg, x < j → t.V[j] = s.V[j]) ∧
      t = { s with V := t.V }) ∧
    (4096 < s.indexAddress 0 + (x.val + 1) → exec (.loadRegs x) s =
      .next { s with halted := true, fault := some (.addressOutOfRange (max (s.indexAddress 0) 4096)) })

/-- In a state whose memory is in canonical form, where LD [I], Vx runs without a fault and pc, at most 4094, is I + j
with j + 1 at most x: after it the fetch at pc reads the word V[j] * 256 + V[j + 1]. That pc may be odd is the spec's
own decision D23, log entry 24. (R92, R276, 92_eei_decisions.md D23) -/
def Obligations.StoredBytesAreFetched : Prop :=
  ∀ (x : Reg) (s t : State) (j : Nat) (hj : j + 1 ≤ x.val), s.M.wf = true → s.pc.toNat = s.indexAddress j →
    raisedBy (.storeRegs x) s = none → exec (.storeRegs x) s = .next t →
    ∃ w, t.fetch = .ok w ∧ w.toNat = (s.V[j]'(by omega)).toNat * 256 + (s.V[j + 1]'(by omega)).toNat

/-- For two memories in canonical form: if every address reads the same in both, they are equal. (The list form of
memory is the model's, log entry 21.) (R49, R70) -/
def Obligations.CanonicalMemoriesWithEqualBytesAreEqual : Prop :=
  ∀ m m' : Memory, m.wf = true → m'.wf = true → (∀ a, m.read a = m'.read a) → m = m'

/-- For every state, reached or not: if a step answers a next state, every byte at 0x050 to 0x09F reads as it did
before. That a write to the font faults is the spec's own decision D8, log entry 17. (R71, R74, 92_eei_decisions.md
D8) -/
def Obligations.NoStepChangesTheFont : Prop :=
  ∀ (s t : State), step s = .next t → ∀ a, inFont a = true → t.M.read a = s.M.read a

/-- For every choice of the parameter FONT_DATA and of the open values: the bytes of the font table are FONT_DATA and
every other byte is zero, pc is 0x200, SP and I are 0, every pixel is off, the machine is not halted and records no
fault, and V, DT, ST and S hold the open values. State.reset is such a machine, with the table of R76 as its
FONT_DATA. The halt state, the open values and the font as a parameter with its default are the spec's own decisions
D7, D9, D10 and D15, log entries 5 and 16. (R76, R340, R341, 92_eei_decisions.md D7, 92_eei_decisions.md D9,
92_eei_decisions.md D10, 92_eei_decisions.md D15) -/
def Obligations.CreationStateAsRuled : Prop :=
  (∀ init : Config.Init,
    (∀ k : Fin 80, (State.create init).M.read (0x050 + k.val) = init.font[k]) ∧
    (∀ a, a < 0x050 ∨ 0x09F < a → (State.create init).M.read a = 0) ∧
    (State.create init).pc = 0x200 ∧ (State.create init).SP = 0 ∧ (State.create init).I = 0 ∧
    (∀ x < 64, ∀ y < 32, (State.create init).P.get x y = false) ∧
    (State.create init).halted = false ∧ (State.create init).fault = none ∧
    (State.create init).V = init.V ∧ (State.create init).DT = init.DT ∧ (State.create init).ST = init.ST ∧
    (State.create init).S = init.S) ∧
  (∃ init : Config.Init, State.reset = State.create init ∧ init.font.toList = fontData)

/-- For every choice of FONT_DATA and of the open creation values the new machine meets the invariant (canonical
memory, the font table holds that FONT_DATA, stack entries in use at most 0x1000, pc at most 0x10FE, halted and fault
set together); so does State.reset with the default FONT_DATA. The canonical form of memory is the model's own choice,
log entry 21. The font clause and the halt clause rest on the spec's own decisions D8 and D7, log entries 17 and 16.
(R38, R45, R50, R74, R133, R163, R340, 92_eei_decisions.md D7, 92_eei_decisions.md D8) -/
def Obligations.NewMachineMeetsInvariant : Prop :=
  (∀ init : Config.Init, (State.create init).Inv init.font) ∧ State.reset.Inv defaultFont

/-- For every FONT_DATA and every state that meets the invariant of a machine with it: if a step answers a next state,
that state meets it: memory stays in canonical form, the font table holds FONT_DATA, every stack entry in use is at
most 0x1000, pc is at most 0x10FE, and halted is set exactly when a fault is recorded. The canonical form of memory is
the model's own choice, log entry 21. The font clause and the halt clause rest on the spec's own decisions D8 and D7,
log entries 17 and 16. (R38, R45, R50, R74, R133, R163, 92_eei_decisions.md D7, 92_eei_decisions.md D8) -/
def Obligations.EveryStepKeepsInvariant : Prop :=
  ∀ (font : Vector Byte 80) (s t : State), s.Inv font → step s = .next t → t.Inv font

/-- load(src) with an unreadable source fails with LoadUnreadable, with more than 3584 bytes with LoadTooLarge(len);
otherwise, in a state whose memory is in canonical form, it succeeds, the byte at 0x200 + j is src[j], every other
byte reads as before, and nothing but memory changes, also on a halted machine. The load on a halted machine and the
host's verdict are the spec's own decisions D22 and D28, log entry 23. (R80, R83, 92_eei_decisions.md D22,
92_eei_decisions.md D28) -/
def Obligations.RomLoadCopiesOrFailsUnchanged : Prop :=
  ∀ (src : List Byte) (s : State), s.M.wf = true →
    loadRom false src s = .error .unreadable ∧
    (3584 < src.length → loadRom true src s = .error (.tooLarge src.length)) ∧
    (src.length ≤ 3584 → ∃ t, loadRom true src s = .ok t ∧
      (∀ j (h : j < src.length), t.M.read (0x200 + j) = src[j]) ∧
      (∀ a, a < 0x200 ∨ 0x200 + src.length ≤ a → t.M.read a = s.M.read a) ∧
      t = { s with M := t.M })

/-- For every FONT_DATA and every state that meets the invariant of a machine with it (canonical memory, the font
table holds FONT_DATA, stack entries in use at most 0x1000, pc at most 0x10FE, halted and fault set together): a ROM
load that succeeds gives a state that meets it. The canonical form of memory is the model's own choice, log entry 21.
The font clause and the halt clause rest on the spec's own decisions D8 and D7, log entries 17 and 16. The load on a
halted machine is its decision D22, log entry 23. (R38, R45, R50, R74, R80, R83, 92_eei_decisions.md D7,
92_eei_decisions.md D8, 92_eei_decisions.md D22) -/
def Obligations.RomLoadKeepsInvariant : Prop :=
  ∀ (font : Vector Byte 80) (readable : Bool) (src : List Byte) (s t : State), s.Inv font →
    loadRom readable src s = .ok t → t.Inv font

/-- For every choice of FONT_DATA and of the open creation values: after k cycles, k up to 1792, the new machine is
not halted, pc is 0x200 + 2 k, and every one of these cycles reported Ok with no diagnostic; after cycle 1793 it is
halted with AddressOutOfRange(0x1000) and pc is 0x1000. The rule is the spec's own derivation. The halt record of a
fatal error is the spec's own decision D7, log entry 16. (R344, 92_eei_decisions.md D7) -/
def Obligations.ZeroedMemoryRunsToTheEndAndFaults : Prop :=
  ∀ init : Config.Init,
    (∀ k ≤ 1792, ∃ t, runCycles k (State.create init) = .next t ∧ t.halted = false ∧
      t.pc.toNat = 0x200 + 2 * k ∧ (0 < k → ∃ beep, t.outcome = some (.ok beep none))) ∧
    ∃ t, runCycles 1793 (State.create init) = .next t ∧ t.halted = true ∧
      t.fault = some (.addressOutOfRange 0x1000) ∧ t.pc.toNat = 0x1000

/-- cycle(K, r) is one step from the state with (K, r) supplied first: there the cycle's key vector is K and its
random byte r; it answers a next state, which has used up exactly that input and counts one cycle more, on a halted
machine too. The input list is the model's form of the port (log entry 1); the cycle counter, and that a cycle on a
halted machine uses up its input and is counted, are the model's own choices (log entries 2 and 9). That the key
vector and the random byte are inputs of the cycle are the spec's own decisions D18 and D17. (R60, R61, R62, R144,
92_eei_decisions.md D17, 92_eei_decisions.md D18) -/
def Obligations.CyclePortSuppliesItsInputs : Prop :=
  ∀ (K : Vector Bool 16) (r : Byte) (s : State),
    State.keys { s with inputs := { K := K, r := r } :: s.inputs } = K ∧
    State.random { s with inputs := { K := K, r := r } :: s.inputs } = r ∧
    ∃ t, cycle K r s = .next t ∧ step { s with inputs := { K := K, r := r } :: s.inputs } = .next t ∧
      t.inputs = s.inputs ∧ t.cycleNo = s.cycleNo + 1

/-- For every FONT_DATA and every state whose font table holds it, with d = V[x] at most 15: LD F, Vx completes, and
the bytes at I + 0 to I + 4 are the bytes 5 d to 5 d + 4 of FONT_DATA; nothing but I changes. The place of a glyph is
the spec's own derivation, and FONT_DATA as a parameter its decision D15, log entry 5. (R74, R75, R273,
92_eei_decisions.md D15) -/
def Obligations.GlyphAddressNamesTheGlyphOfTheFont : Prop :=
  ∀ (font : Vector Byte 80) (x : Reg) (s : State), s.holdsFont font → ∀ hd : s.V[x].toNat < 16,
    ∃ t, exec (.ldF x) s = .next t ∧ t = { s with I := t.I } ∧
      ∀ j : Fin 5, t.M.read (t.indexAddress j.val) = font[5 * s.V[x].toNat + j.val]'(by omega)
end

