-- ==== Sys2Proof/Laws/Decode.lean ====
section
/-! SUPPORT. The fields of the words the encoder builds (spec/30_encoding.md R101), byte order (R84), and what the
masks of the opcode map select (R105). -/

namespace Sys2Proof

/-! ## Byte order -/

theorem wordOfBytes_toNat (hi lo : Byte) : (wordOfBytes hi lo).toNat = hi.toNat * 256 + lo.toNat := by
  have := hi.isLt; have := lo.isLt
  simp only [wordOfBytes, BitVec.toNat_ofNat]; omega

@[simp] theorem wordOfBytes_high_low (w : Word) : wordOfBytes (highByte w) (lowByte w) = w := by
  have := w.isLt
  apply BitVec.eq_of_toNat_eq
  rw [wordOfBytes_toNat]
  simp only [highByte, lowByte, BitVec.toNat_ofNat]; omega

@[simp] theorem highByte_wordOfBytes (hi lo : Byte) : highByte (wordOfBytes hi lo) = hi := by
  have := hi.isLt; have := lo.isLt
  apply BitVec.eq_of_toNat_eq
  simp only [highByte, BitVec.toNat_ofNat, wordOfBytes_toNat]; omega

@[simp] theorem lowByte_wordOfBytes (hi lo : Byte) : lowByte (wordOfBytes hi lo) = lo := by
  have := hi.isLt; have := lo.isLt
  apply BitVec.eq_of_toNat_eq
  simp only [lowByte, BitVec.toNat_ofNat, wordOfBytes_toNat]; omega

/-! ## Fields of `op nnn` -/

theorem wordNNN_toNat {op : Nat} (h : op < 16) (nnn : BitVec 12) :
    (wordNNN op nnn).toNat = op * 4096 + nnn.toNat := by
  have := nnn.isLt
  simp only [wordNNN, BitVec.toNat_ofNat]; omega

theorem opField_wordNNN {op : Nat} (h : op < 16) (nnn : BitVec 12) : opField (wordNNN op nnn) = op := by
  have := nnn.isLt
  rw [opField, wordNNN_toNat h]; omega

theorem nnnField_wordNNN {op : Nat} (h : op < 16) (nnn : BitVec 12) : nnnField (wordNNN op nnn) = nnn := by
  have := nnn.isLt
  apply BitVec.eq_of_toNat_eq
  rw [nnnField, wordNNN_toNat h, BitVec.toNat_ofNat]; omega

/-! ## Fields of `op x kk` -/

theorem wordXKK_toNat {op : Nat} (h : op < 16) (x : Reg) (kk : Byte) :
    (wordXKK op x kk).toNat = op * 4096 + x.val * 256 + kk.toNat := by
  have := kk.isLt; have := x.isLt
  simp only [wordXKK, BitVec.toNat_ofNat]; omega

theorem opField_wordXKK {op : Nat} (h : op < 16) (x : Reg) (kk : Byte) : opField (wordXKK op x kk) = op := by
  have := kk.isLt; have := x.isLt
  rw [opField, wordXKK_toNat h]; omega

theorem xField_wordXKK {op : Nat} (h : op < 16) (x : Reg) (kk : Byte) : xField (wordXKK op x kk) = x := by
  have := kk.isLt; have := x.isLt
  apply Fin.ext
  simp only [xField, wordXKK_toNat h]; omega

theorem kkField_wordXKK {op : Nat} (h : op < 16) (x : Reg) (kk : Byte) : kkField (wordXKK op x kk) = kk := by
  have := kk.isLt; have := x.isLt
  apply BitVec.eq_of_toNat_eq
  rw [kkField, wordXKK_toNat h, BitVec.toNat_ofNat]; omega

/-! ## Fields of `op x y n` -/

theorem wordXYN_toNat {op : Nat} (h : op < 16) (x y : Reg) (n : Fin 16) :
    (wordXYN op x y n).toNat = op * 4096 + x.val * 256 + y.val * 16 + n.val := by
  have := x.isLt; have := y.isLt; have := n.isLt
  simp only [wordXYN, BitVec.toNat_ofNat]; omega

theorem opField_wordXYN {op : Nat} (h : op < 16) (x y : Reg) (n : Fin 16) : opField (wordXYN op x y n) = op := by
  have := x.isLt; have := y.isLt; have := n.isLt
  rw [opField, wordXYN_toNat h]; omega

theorem xField_wordXYN {op : Nat} (h : op < 16) (x y : Reg) (n : Fin 16) : xField (wordXYN op x y n) = x := by
  have := x.isLt; have := y.isLt; have := n.isLt
  apply Fin.ext
  simp only [xField, wordXYN_toNat h]; omega

theorem yField_wordXYN {op : Nat} (h : op < 16) (x y : Reg) (n : Fin 16) : yField (wordXYN op x y n) = y := by
  have := x.isLt; have := y.isLt; have := n.isLt
  apply Fin.ext
  simp only [yField, wordXYN_toNat h]; omega

theorem nField_wordXYN {op : Nat} (h : op < 16) (x y : Reg) (n : Fin 16) : nField (wordXYN op x y n) = n := by
  have := x.isLt; have := y.isLt; have := n.isLt
  apply Fin.ext
  simp only [nField, wordXYN_toNat h]; omega

/-! ## A word from its fields -/

theorem word_eq_wordNNN (w : Word) : w = wordNNN (opField w) (nnnField w) := by
  have := w.isLt
  apply BitVec.eq_of_toNat_eq
  rw [wordNNN_toNat (by unfold opField; omega)]
  simp only [opField, nnnField, BitVec.toNat_ofNat]; omega

theorem word_eq_wordXKK (w : Word) : w = wordXKK (opField w) (xField w) (kkField w) := by
  have := w.isLt
  apply BitVec.eq_of_toNat_eq
  rw [wordXKK_toNat (by unfold opField; omega)]
  simp only [opField, xField, kkField, BitVec.toNat_ofNat]; omega

theorem word_eq_wordXYN (w : Word) : w = wordXYN (opField w) (xField w) (yField w) (nField w) := by
  have := w.isLt
  apply BitVec.eq_of_toNat_eq
  rw [wordXYN_toNat (by unfold opField; omega)]
  simp only [opField, xField, yField, nField]; omega

/-! ## Masks (R105) -/

/-- A mask of the high nibble and the low `k` bits, on numbers. -/
theorem nat_and_mask {w k : Nat} (hk : k ≤ 12) (hw : w < 65536) :
    w &&& (2 ^ 12 * 15 + (2 ^ k - 1)) = 2 ^ 12 * (w / 4096) + w % 2 ^ k := by
  have hmod : w % 2 ^ k < 2 ^ 12 := lt_of_lt_of_le (Nat.mod_lt _ (by positivity)) (Nat.pow_le_pow_right (by omega) hk)
  have hmask : 2 ^ k - 1 < 2 ^ 12 := lt_of_lt_of_le (Nat.sub_lt (by positivity) (by omega))
    (Nat.pow_le_pow_right (by omega) hk)
  apply Nat.eq_of_testBit_eq
  intro i
  rw [Nat.testBit_and, Nat.testBit_two_pow_mul_add _ hmask, Nat.testBit_two_pow_mul_add _ hmod]
  by_cases hi : i < 12
  · simp only [hi, if_true, Nat.testBit_two_pow_sub_one, Nat.testBit_mod_two_pow, Bool.and_comm]
  · simp only [hi, if_false]
    rw [show w / 4096 = w / 2 ^ 12 by norm_num, Nat.testBit_div_two_pow, show i - 12 + 12 = i by omega]
    by_cases h16 : i < 16
    · have : Nat.testBit 15 (i - 12) = true := by
        have : i = 12 ∨ i = 13 ∨ i = 14 ∨ i = 15 := by omega
        rcases this with rfl | rfl | rfl | rfl <;> decide
      rw [this, Bool.and_true]
    · have : w.testBit i = false := Nat.testBit_lt_two_pow (lt_of_lt_of_le hw (by
        calc 65536 = 2 ^ 16 := by norm_num
          _ ≤ 2 ^ i := Nat.pow_le_pow_right (by omega) (by omega)))
      rw [this, Bool.false_and]

theorem mask_F000 (w : Word) : (w &&& 0xF000#16).toNat = 4096 * (w.toNat / 4096) := by
  have := nat_and_mask (k := 0) (by omega) w.isLt
  simpa [Nat.mod_one] using this

theorem mask_F00F (w : Word) : (w &&& 0xF00F#16).toNat = 4096 * (w.toNat / 4096) + w.toNat % 16 := by
  have := nat_and_mask (k := 4) (by omega) w.isLt
  simpa using this

theorem mask_F0FF (w : Word) : (w &&& 0xF0FF#16).toNat = 4096 * (w.toNat / 4096) + w.toNat % 256 := by
  have := nat_and_mask (k := 8) (by omega) w.isLt
  simpa using this

theorem mask_FFFF (w : Word) : w &&& 0xFFFF#16 = w := by
  have : (0xFFFF#16) = BitVec.allOnes 16 := by decide
  rw [this, BitVec.and_allOnes]

/-- A row with mask 0xF000 and no exception selects on the high nibble. -/
theorem matches_F000 {v w : Word} : OpcodeRow.matches { value := v, mask := 0xF000 } w = true ↔
    4096 * (w.toNat / 4096) = v.toNat := by
  simp only [OpcodeRow.matches, List.contains_nil, Bool.not_false, Bool.and_true, beq_iff_eq]
  rw [← mask_F000]
  exact BitVec.toNat_inj.symm

/-- A row with mask 0xF00F selects on the high and the low nibble. -/
theorem matches_F00F {v w : Word} : OpcodeRow.matches { value := v, mask := 0xF00F } w = true ↔
    4096 * (w.toNat / 4096) + w.toNat % 16 = v.toNat := by
  simp only [OpcodeRow.matches, List.contains_nil, Bool.not_false, Bool.and_true, beq_iff_eq]
  rw [← mask_F00F]
  exact BitVec.toNat_inj.symm

/-- A row with mask 0xF0FF selects on the high nibble and the low byte. -/
theorem matches_F0FF {v w : Word} : OpcodeRow.matches { value := v, mask := 0xF0FF } w = true ↔
    4096 * (w.toNat / 4096) + w.toNat % 256 = v.toNat := by
  simp only [OpcodeRow.matches, List.contains_nil, Bool.not_false, Bool.and_true, beq_iff_eq]
  rw [← mask_F0FF]
  exact BitVec.toNat_inj.symm

/-- A row with mask 0xFFFF selects one word. -/
theorem matches_FFFF {v w : Word} : OpcodeRow.matches { value := v, mask := 0xFFFF } w = true ↔ w = v := by
  simp only [OpcodeRow.matches, List.contains_nil, Bool.not_false, Bool.and_true, beq_iff_eq]
  exact ⟨fun h => (mask_FFFF w).symm.trans h, fun h => (mask_FFFF w).trans h⟩

/-! ## Group 0 -/

/-- A word of group 0 other than the two fixed words is `SYS` (R105 row 1). -/
theorem decodeGroup0_sys {w : Word} (h1 : nnnField w ≠ 0x0E0) (h2 : nnnField w ≠ 0x0EE) :
    decodeGroup0 w = .sys (nnnField w) := by
  rw [decodeGroup0, if_neg h1, if_neg h2]

/-- `SYS nnn` is well-formed when it is not one of the two fixed words. -/
theorem wellFormed_sys {nnn : BitVec 12} : (Instr.sys nnn).wellFormed = true ↔ nnn ≠ 0x0E0 ∧ nnn ≠ 0x0EE := by
  simp only [Instr.wellFormed, Bool.and_eq_true, bne_iff_ne]

end Sys2Proof
end

