-- ==== Sys2Proof/Laws/Display.lean ====
section
/-! SUPPORT. What a drawing does, pixel by pixel (spec/43_display.md R231 to R234): every pixel of the grid becomes its
old value XOR the sprite bit that covers it, and the collision bit is set where a sprite bit meets a pixel that was on. -/

namespace Sys2Proof.Machine

/-- The bit of a sprite drawn at `(x0, y0)` that falls on `(px, py)`; false where the sprite has none. -/
def spriteAt (sprite : List Byte) (x0 y0 px py : Nat) : Bool :=
  decide (x0 ≤ px ∧ px < x0 + 8 ∧ y0 ≤ py ∧ py < y0 + sprite.length) &&
    spriteBit (sprite.getD (py - y0) 0) (px - x0)

/-! ## One pixel -/

theorem Display.get_outside (P : Display) {x y : Nat} (h : ¬(x < 64 ∧ y < 32)) : P.get x y = false := by
  simp [Display.get, h]

theorem Display.get_inside (P : Display) {x y : Nat} (hx : x < 64) (hy : y < 32) : P.get x y = P[y][x] := by
  simp [Display.get, hx, hy]

@[simp] theorem Display.get_clear (x y : Nat) : Display.clear.get x y = false := by
  simp [Display.get, Display.clear]

theorem Display.get_flip (P : Display) {x y : Nat} (hx : x < 64) (hy : y < 32) (a b : Nat) :
    (P.flip x y).get a b = (P.get a b ^^ decide (a = x ∧ b = y)) := by
  by_cases hab : a < 64 ∧ b < 32
  · obtain ⟨ha, hb⟩ := hab
    rw [Display.get_inside _ ha hb, Display.get_inside _ ha hb]
    simp only [Display.flip, hx, hy, and_self, dif_pos]
    by_cases hby : b = y
    · subst hby
      by_cases hax : a = x
      · subst hax; simp
      · simp [hax, Ne.symm hax]
    · simp [hby, Ne.symm hby]
  · rw [Display.get_outside _ hab, Display.get_outside _ hab]
    have : ¬(a = x ∧ b = y) := fun ⟨h1, h2⟩ => hab ⟨h1 ▸ hx, h2 ▸ hy⟩
    simp [this]

theorem Drawing.pixel_get (d : Drawing) (px py : Nat) (bit : Bool) (a b : Nat) (ha : a < 64) (hb : b < 32) :
    (d.pixel px py bit).P.get a b = (d.P.get a b ^^ (bit && decide (a = px ∧ b = py))) := by
  unfold Drawing.pixel
  split
  · next h => rw [Display.get_flip _ h.1 h.2.1, h.2.2, Bool.true_and]
  · next h =>
    cases bit with
    | false => simp
    | true =>
      have : ¬(a = px ∧ b = py) := by rintro ⟨rfl, rfl⟩; exact h ⟨ha, hb, rfl⟩
      simp [this]

theorem Drawing.pixel_collides (d : Drawing) (px py : Nat) (bit : Bool) :
    (d.pixel px py bit).c = true ↔ d.c = true ∨ (bit = true ∧ d.P.get px py = true) := by
  unfold Drawing.pixel
  split
  · next h => simp [h.2.2]
  · next h =>
    constructor
    · exact Or.inl
    · rintro (hc | ⟨hb, hg⟩)
      · exact hc
      · by_cases hin : px < 64 ∧ py < 32
        · exact absurd ⟨hin.1, hin.2, hb⟩ h
        · rw [Display.get_outside _ hin] at hg; cases hg

/-! ## One row -/

theorem Drawing.rowFrom_get (d : Drawing) (row : Byte) (x0 py k : Nat) (hk : k ≤ 8) (a b : Nat) (ha : a < 64)
    (hb : b < 32) :
    (d.rowFrom row x0 py k).P.get a b =
      (d.P.get a b ^^ (decide (b = py ∧ x0 + (8 - k) ≤ a ∧ a < x0 + 8) && spriteBit row (a - x0))) := by
  induction k generalizing d with
  | zero =>
    have : ¬(b = py ∧ x0 + (8 - 0) ≤ a ∧ a < x0 + 8) := by omega
    rw [Drawing.rowFrom, decide_eq_false this, Bool.false_and, Bool.xor_false]
  | succ k ih =>
    rw [Drawing.rowFrom, ih _ (by omega), Drawing.pixel_get _ _ _ _ _ _ ha hb]
    by_cases hcol : a = x0 + (7 - k) ∧ b = py
    · obtain ⟨rfl, rfl⟩ := hcol
      have h1 : ¬(x0 + (8 - k) ≤ x0 + (7 - k)) := by omega
      have h2 : x0 + (8 - (k + 1)) ≤ x0 + (7 - k) ∧ x0 + (7 - k) < x0 + 8 := by omega
      simp [h1]
      intro; omega
    · have h3 : (b = py ∧ x0 + (8 - k) ≤ a ∧ a < x0 + 8) ↔ (b = py ∧ x0 + (8 - (k + 1)) ≤ a ∧ a < x0 + 8) := by
        constructor
        · rintro ⟨h, h', h''⟩; omega
        · rintro ⟨rfl, h', h''⟩
          refine ⟨rfl, ?_, h''⟩
          by_contra hlt
          exact hcol ⟨by omega, rfl⟩
      simp [hcol, h3]

theorem Drawing.rowFrom_collides (d : Drawing) (row : Byte) (x0 py k : Nat) (hk : k ≤ 8) :
    (d.rowFrom row x0 py k).c = true ↔
      d.c = true ∨ ∃ a, x0 + (8 - k) ≤ a ∧ a < x0 + 8 ∧ spriteBit row (a - x0) = true ∧ d.P.get a py = true := by
  induction k generalizing d with
  | zero =>
    simp only [Drawing.rowFrom]
    constructor
    · exact Or.inl
    · rintro (h | ⟨a, h1, h2, -⟩)
      · exact h
      · omega
  | succ k ih =>
    rw [Drawing.rowFrom, ih _ (by omega), Drawing.pixel_collides]
    have keep : ∀ a, x0 + (8 - k) ≤ a →
        (d.pixel (x0 + (7 - k)) py (spriteBit row (7 - k))).P.get a py = d.P.get a py := by
      intro a h
      by_cases hin : a < 64 ∧ py < 32
      · rw [Drawing.pixel_get _ _ _ _ _ _ hin.1 hin.2]
        have : a ≠ x0 + (7 - k) := by omega
        simp [this]
      · rw [Display.get_outside _ hin, Display.get_outside _ hin]
    constructor
    · rintro ((h | ⟨h1, h2⟩) | ⟨a, h1, h2, h3, h4⟩)
      · exact Or.inl h
      · refine Or.inr ⟨x0 + (7 - k), by omega, by omega, ?_, h2⟩
        rwa [show x0 + (7 - k) - x0 = 7 - k by omega]
      · rw [keep a h1] at h4
        exact Or.inr ⟨a, by omega, h2, h3, h4⟩
    · rintro (h | ⟨a, h1, h2, h3, h4⟩)
      · exact Or.inl (Or.inl h)
      · by_cases hcol : a = x0 + (7 - k)
        · subst hcol
          rw [show x0 + (7 - k) - x0 = 7 - k by omega] at h3
          exact Or.inl (Or.inr ⟨h3, h4⟩)
        · have hle : x0 + (8 - k) ≤ a := by omega
          exact Or.inr ⟨a, hle, h2, h3, by rwa [keep a hle]⟩

/-! ## All rows -/

theorem spriteAt_cons (row : Byte) (rest : List Byte) (x0 y0 px py : Nat) :
    spriteAt (row :: rest) x0 y0 px py =
      if py = y0 then decide (x0 ≤ px ∧ px < x0 + 8) && spriteBit row (px - x0)
      else spriteAt rest x0 (y0 + 1) px py := by
  unfold spriteAt
  split
  · next h => subst h; simp
  · next h =>
    by_cases hle : y0 ≤ py
    · obtain ⟨m, rfl⟩ : ∃ m, py = y0 + 1 + m := ⟨py - y0 - 1, by omega⟩
      rw [show y0 + 1 + m - y0 = m + 1 by omega, show y0 + 1 + m - (y0 + 1) = m by omega, List.getD_cons_succ]
      congr 1
      simp only [List.length_cons, decide_eq_decide]
      omega
    · have h1 : ¬(x0 ≤ px ∧ px < x0 + 8 ∧ y0 ≤ py ∧ py < y0 + (row :: rest).length) := by omega
      have h2 : ¬(x0 ≤ px ∧ px < x0 + 8 ∧ y0 + 1 ≤ py ∧ py < y0 + 1 + rest.length) := by omega
      rw [decide_eq_false h1, decide_eq_false h2, Bool.false_and, Bool.false_and]

@[simp] theorem spriteAt_nil (x0 y0 px py : Nat) : spriteAt [] x0 y0 px py = false := by
  have : ¬(x0 ≤ px ∧ px < x0 + 8 ∧ y0 ≤ py ∧ py < y0 + ([] : List Byte).length) := by
    rw [List.length_nil]; omega
  rw [spriteAt, decide_eq_false this, Bool.false_and]

theorem Drawing.rows_get (d : Drawing) (x0 y0 : Nat) (sprite : List Byte) (a b : Nat) (ha : a < 64) (hb : b < 32) :
    (d.rows x0 y0 sprite).P.get a b = (d.P.get a b ^^ spriteAt sprite x0 y0 a b) := by
  induction sprite generalizing d y0 with
  | nil => simp [Drawing.rows]
  | cons row rest ih =>
    rw [Drawing.rows, ih, Drawing.rowFrom_get _ _ _ _ 8 (le_refl 8) _ _ ha hb, spriteAt_cons]
    split
    · next h =>
      subst h
      have : spriteAt rest x0 (b + 1) a b = false := by simp [spriteAt]
      simp [this]
    · next h => simp [h]

theorem Drawing.rows_collides (d : Drawing) (x0 y0 : Nat) (sprite : List Byte) :
    (d.rows x0 y0 sprite).c = true ↔
      d.c = true ∨ ∃ a b, spriteAt sprite x0 y0 a b = true ∧ d.P.get a b = true := by
  induction sprite generalizing d y0 with
  | nil =>
    simp [Drawing.rows]
  | cons row rest ih =>
    rw [Drawing.rows, ih, Drawing.rowFrom_collides _ _ _ _ 8 (le_refl 8)]
    have keep : ∀ a b, b ≠ y0 → (d.rowFrom row x0 y0 8).P.get a b = d.P.get a b := by
      intro a b h
      by_cases hin : a < 64 ∧ b < 32
      · rw [Drawing.rowFrom_get _ _ _ _ 8 (le_refl 8) _ _ hin.1 hin.2]
        simp [h]
      · rw [Display.get_outside _ hin, Display.get_outside _ hin]
    have below : ∀ a b, spriteAt rest x0 (y0 + 1) a b = true → b ≠ y0 := by
      intro a b h
      simp only [spriteAt, Bool.and_eq_true, decide_eq_true_eq] at h
      omega
    constructor
    · rintro ((h | ⟨a, h1, h2, h3, h4⟩) | ⟨a, b, h1, h2⟩)
      · exact Or.inl h
      · refine Or.inr ⟨a, y0, ?_, h4⟩
        rw [spriteAt_cons]
        simp [h3]; omega
      · rw [keep a b (below a b h1)] at h2
        refine Or.inr ⟨a, b, ?_, h2⟩
        rw [spriteAt_cons]
        simp [below a b h1, h1]
    · rintro (h | ⟨a, b, h1, h2⟩)
      · exact Or.inl (Or.inl h)
      · rw [spriteAt_cons] at h1
        split at h1
        · next hb =>
          subst hb
          simp only [Bool.and_eq_true, decide_eq_true_eq] at h1
          exact Or.inl (Or.inr ⟨a, by omega, h1.1.2, h1.2, h2⟩)
        · next hb => exact Or.inr ⟨a, b, h1, by rwa [keep a b hb]⟩

/-! ## The drawing -/

/-- Every pixel of the grid after a drawing: its old value XOR the sprite bit on it (R231, R233, R234). -/
theorem Display.draw_get (P : Display) (x0 y0 : Nat) (sprite : List Byte) (a b : Nat) (ha : a < 64) (hb : b < 32) :
    (P.draw x0 y0 sprite).P.get a b = (P.get a b ^^ spriteAt sprite x0 y0 a b) :=
  Drawing.rows_get _ _ _ _ _ _ ha hb

/-- A drawing collides exactly when a sprite bit falls on a pixel that was on (R234). -/
theorem Display.draw_collides (P : Display) (x0 y0 : Nat) (sprite : List Byte) :
    (P.draw x0 y0 sprite).c = true ↔ ∃ a b, spriteAt sprite x0 y0 a b = true ∧ P.get a b = true := by
  rw [Display.draw, Drawing.rows_collides]
  simp

/-- Two displays with the same pixels are the same. -/
theorem Display.ext_get {P Q : Display} (h : ∀ x < 64, ∀ y < 32, P.get x y = Q.get x y) : P = Q := by
  apply Vector.ext
  intro y hy
  apply Vector.ext
  intro x hx
  have := h x hx y hy
  rwa [Display.get_inside _ hx hy, Display.get_inside _ hx hy] at this

end Sys2Proof.Machine
end

