-- ==== Sys2Proof/Laws/Memory.lean ====
section
/-! SUPPORT. The laws of memory (spec/20_memory.md R72, R85, R89): read after write, the canonical form, the bytes of
a multi-byte access, and what a range check says. -/

namespace Sys2Proof.Machine

/-! ## The canonical form -/

theorem Memory.wf_nil : Memory.wf [] = true := rfl

theorem Memory.wf_cons {k : Nat} {b : Byte} {rest : Memory} :
    Memory.wf ((k, b) :: rest) = true ↔
      k < 4096 ∧ b ≠ unlistedByte k ∧ (∀ c ∈ rest, k < c.1) ∧ Memory.wf rest = true := by
  simp [Memory.wf, and_assoc]

/-- An address below every listed cell reads as unlisted. -/
theorem Memory.read_unlisted {m : Memory} {a : Nat} (h : ∀ c ∈ m, a < c.1) : m.read a = unlistedByte a := by
  induction m with
  | nil => rfl
  | cons c rest ih =>
    obtain ⟨k, b⟩ := c
    have hk : a < k := h (k, b) (by simp)
    simp only [Memory.read, show k ≠ a by omega, if_false]
    exact ih fun c hc => h c (by simp [hc])

/-- A cell of the result of a write is the written one or was there before. -/
theorem Memory.mem_write {m : Memory} {a : Nat} {v : Byte} {c : Host.Cell} (h : c ∈ m.write a v) :
    c = (a, v) ∨ c ∈ m := by
  induction m with
  | nil =>
    simp only [Memory.write] at h
    split at h <;> simp_all
  | cons d rest ih =>
    obtain ⟨k, b⟩ := d
    simp only [Memory.write] at h
    split at h
    · split at h <;> simp_all
    · split at h
      · split at h <;> grind
      · rcases List.mem_cons.mp h with rfl | h'
        · simp
        · rcases ih h' with rfl | h'' <;> simp [*]

/-- A write to an address below 4096 keeps the canonical form. -/
theorem Memory.write_wf {m : Memory} {a : Nat} (v : Byte) (ha : a < 4096) (h : m.wf = true) :
    (m.write a v).wf = true := by
  induction m with
  | nil =>
    simp only [Memory.write]
    split
    · rfl
    · simp [Memory.wf, *]
  | cons c rest ih =>
    obtain ⟨k, b⟩ := c
    have ⟨hk, hb, hlt, hrest⟩ := Memory.wf_cons.mp h
    simp only [Memory.write]
    split
    · next hak =>
      split
      · exact h
      · next hv =>
        refine Memory.wf_cons.mpr ⟨ha, hv, ?_, h⟩
        intro c hc
        rcases List.mem_cons.mp hc with rfl | hc
        · exact hak
        · exact lt_trans hak (hlt c hc)
    · split
      · next hak =>
        subst hak
        split
        · exact hrest
        · next hv => exact Memory.wf_cons.mpr ⟨ha, hv, hlt, hrest⟩
      · refine Memory.wf_cons.mpr ⟨hk, hb, ?_, ih hrest⟩
        intro c hc
        rcases Memory.mem_write hc with rfl | hc
        · simp only; omega
        · exact hlt c hc

/-! ## Read after write -/

theorem Memory.read_write_same {m : Memory} (a : Nat) (v : Byte) (h : m.wf = true) : (m.write a v).read a = v := by
  induction m with
  | nil =>
    simp only [Memory.write]
    split <;> simp [Memory.read, *]
  | cons c rest ih =>
    obtain ⟨k, b⟩ := c
    have ⟨_, _, hlt, hrest⟩ := Memory.wf_cons.mp h
    simp only [Memory.write]
    split
    · next hak =>
      split
      · next hv =>
        rw [hv]
        refine Memory.read_unlisted fun c hc => ?_
        rcases List.mem_cons.mp hc with rfl | hc
        · exact hak
        · exact lt_trans hak (hlt c hc)
      · simp [Memory.read]
    · split
      · next hak =>
        subst hak
        split
        · next hv => rw [hv]; exact Memory.read_unlisted hlt
        · simp [Memory.read]
      · next h1 h2 =>
        simp only [Memory.read, show k ≠ a by omega, if_false]
        exact ih hrest

theorem Memory.read_write_other (m : Memory) {a b : Nat} (v : Byte) (h : b ≠ a) :
    (m.write a v).read b = m.read b := by
  induction m with
  | nil =>
    simp only [Memory.write]
    split <;> simp [Memory.read, h.symm]
  | cons c rest ih =>
    obtain ⟨k, w⟩ := c
    simp only [Memory.write]
    split
    · split
      · rfl
      · simp [Memory.read, h.symm]
    · split
      · next hak =>
        subst hak
        split <;> simp [Memory.read, h.symm]
      · simp only [Memory.read, ih]

/-! ## Bytes -/

@[simp] theorem Memory.readBytes_length (m : Memory) (a n : Nat) : (m.readBytes a n).length = n := by
  induction n generalizing a with
  | zero => rfl
  | succ n ih => simp [Memory.readBytes, ih]

theorem Memory.readBytes_getElem (m : Memory) (a n j : Nat) (h : j < (m.readBytes a n).length) :
    (m.readBytes a n)[j] = m.read (a + j) := by
  induction n generalizing a j with
  | zero => simp [Memory.readBytes] at h
  | succ n ih =>
    cases j with
    | zero => rfl
    | succ j =>
      simp only [Memory.readBytes, List.getElem_cons_succ, ih]
      congr 1; omega

/-- Byte `j` of a read, or the default past its end. -/
theorem Memory.readBytes_getD (m : Memory) (a n j : Nat) (d : Byte) :
    (m.readBytes a n).getD j d = if j < n then m.read (a + j) else d := by
  split
  · next h =>
    have h' : j < (m.readBytes a n).length := by simpa using h
    rw [List.getD_eq_getElem _ _ h', Memory.readBytes_getElem]
  · next h => exact List.getD_eq_default _ _ (by simpa using h)

theorem Memory.writeBytes_wf {m : Memory} (a : Nat) (bytes : List Byte) (ha : a + bytes.length ≤ 4096)
    (h : m.wf = true) : (m.writeBytes a bytes).wf = true := by
  induction bytes generalizing m a with
  | nil => exact h
  | cons b rest ih =>
    simp only [List.length_cons] at ha
    exact ih (a + 1) (by omega) (Memory.write_wf b (by omega) h)

theorem Memory.read_writeBytes_outside (m : Memory) (a c : Nat) (bytes : List Byte)
    (h : c < a ∨ a + bytes.length ≤ c) : (m.writeBytes a bytes).read c = m.read c := by
  induction bytes generalizing m a with
  | nil => rfl
  | cons b rest ih =>
    simp only [List.length_cons] at h
    rw [Memory.writeBytes, ih _ (a + 1) (by omega), Memory.read_write_other _ _ (by omega)]

theorem Memory.read_writeBytes_inside {m : Memory} (a : Nat) (bytes : List Byte) (ha : a + bytes.length ≤ 4096)
    (hm : m.wf = true) (j : Nat) (hj : j < bytes.length) : (m.writeBytes a bytes).read (a + j) = bytes[j] := by
  induction bytes generalizing m a j with
  | nil => simp at hj
  | cons b rest ih =>
    simp only [List.length_cons] at ha hj
    cases j with
    | zero =>
      rw [Memory.writeBytes, Memory.read_writeBytes_outside _ _ _ _ (by omega)]
      exact Memory.read_write_same _ _ hm
    | succ j =>
      rw [Memory.writeBytes, show a + (j + 1) = a + 1 + j by omega]
      exact ih (a + 1) (by omega) (Memory.write_wf b (by omega) hm) j (by omega)

/-! ## Range checks -/

/-- An address passes the check when it exists and is not a font byte to be written (R13, R14). -/
theorem accessFault_eq_none {write : Bool} {a : Nat} :
    accessFault write a = none ↔ a < 4096 ∧ ¬(write = true ∧ inFont a = true) := by
  unfold accessFault
  split
  · simp only [Config.memSize] at *; simp; omega
  · simp only [Config.memSize] at *; split <;> simp_all

/-- A range passes when each of its addresses passes (R15). -/
theorem checkRange_eq_none {write : Bool} {a n : Nat} :
    checkRange write a n = none ↔ ∀ j < n, accessFault write (a + j) = none := by
  induction n generalizing a with
  | zero => simp [checkRange]
  | succ n ih =>
    constructor
    · intro h j hj
      simp only [checkRange] at h
      split at h
      · simp at h
      · next h0 =>
        cases j with
        | zero => exact h0
        | succ j =>
          have := ih.mp h j (by omega)
          rwa [show a + 1 + j = a + (j + 1) by omega] at this
    · intro h
      have h0 := h 0 (by omega)
      simp only [Nat.add_zero] at h0
      simp only [checkRange, h0]
      refine ih.mpr fun j hj => ?_
      have := h (j + 1) (by omega)
      rwa [show a + (j + 1) = a + 1 + j by omega] at this

/-- The fault of a range is that of its first failing address (R15, R309). -/
theorem checkRange_eq_some {write : Bool} {a n : Nat} {f : Fault} :
    checkRange write a n = some f ↔
      ∃ j < n, accessFault write (a + j) = some f ∧ ∀ i < j, accessFault write (a + i) = none := by
  induction n generalizing a with
  | zero => simp [checkRange]
  | succ n ih =>
    simp only [checkRange]
    cases h0 : accessFault write a with
    | some g =>
      constructor
      · intro h
        exact ⟨0, by omega, by simpa [h0] using h, by simp⟩
      · rintro ⟨j, _, hj, hi⟩
        cases j with
        | zero => simpa [h0] using hj
        | succ j => have := hi 0 (by omega); simp [h0] at this
    | none =>
      simp only [ih]
      constructor
      · rintro ⟨j, hj, hf, hi⟩
        refine ⟨j + 1, by omega, by rwa [show a + (j + 1) = a + 1 + j by omega], fun i h => ?_⟩
        cases i with
        | zero => exact h0
        | succ i => rw [show a + (i + 1) = a + 1 + i by omega]; exact hi i (by omega)
      · rintro ⟨j, hj, hf, hi⟩
        cases j with
        | zero => simp [h0] at hf
        | succ j =>
          refine ⟨j, by omega, by rwa [show a + 1 + j = a + (j + 1) by omega], fun i h => ?_⟩
          rw [show a + 1 + i = a + (i + 1) by omega]; exact hi (i + 1) (by omega)

/-- A read of `n` bytes: the bytes when all of them exist, else the lowest missing address (R13, R302). -/
theorem checkRange_read (a n : Nat) :
    checkRange false a n = if n = 0 ∨ a + n ≤ 4096 then none else some (.addressOutOfRange (max a 4096)) := by
  split
  · next h => exact checkRange_eq_none.mpr fun j hj => accessFault_eq_none.mpr ⟨by omega, by simp⟩
  · next h =>
    refine checkRange_eq_some.mpr ⟨max a 4096 - a, by omega, ?_, fun i hi => ?_⟩
    · rw [show a + (max a 4096 - a) = max a 4096 by omega]
      simp [accessFault]
    · exact accessFault_eq_none.mpr ⟨by omega, by simp⟩

theorem inFont_iff {a : Nat} : inFont a = true ↔ 0x050 ≤ a ∧ a ≤ 0x09F := by simp [inFont]

/-! ## The memory of a new machine -/

theorem cellsAt_mem {a : Nat} {bytes : List Byte} {c : Host.Cell} (h : c ∈ cellsAt a bytes) : a ≤ c.1 := by
  induction bytes generalizing a with
  | nil => simp [cellsAt] at h
  | cons b rest ih =>
    simp only [cellsAt] at h
    split at h
    · exact Nat.le_of_succ_le (ih h)
    · rcases List.mem_cons.mp h with rfl | h
      · exact Nat.le_refl _
      · exact Nat.le_of_succ_le (ih h)

theorem cellsAt_wf {a : Nat} {bytes : List Byte} (h : a + bytes.length ≤ 4096) :
    Memory.wf (cellsAt a bytes) = true := by
  induction bytes generalizing a with
  | nil => rfl
  | cons b rest ih =>
    have hlen : a + 1 + rest.length ≤ 4096 := by simp only [List.length_cons] at h; omega
    simp only [cellsAt]
    split
    · exact ih hlen
    · next hb => exact Memory.wf_cons.mpr ⟨by omega, hb, fun c hc => cellsAt_mem hc, ih hlen⟩

/-- Outside the bytes an address reads as unlisted, inside as its byte. -/
theorem cellsAt_read (a : Nat) (bytes : List Byte) (c : Nat) :
    Memory.read (cellsAt a bytes) c =
      if h : a ≤ c ∧ c < a + bytes.length then bytes[c - a]'(by omega) else unlistedByte c := by
  induction bytes generalizing a with
  | nil => simp [cellsAt, Memory.read]
  | cons b rest ih =>
    by_cases hc : c = a
    · subst hc
      have below : Memory.read (cellsAt (c + 1) rest) c = unlistedByte c :=
        Memory.read_unlisted fun d hd => cellsAt_mem hd
      simp only [cellsAt]
      split
      · next hb => simp [below, hb]
      · simp [Memory.read]
    · have step : Memory.read (cellsAt a (b :: rest)) c = Memory.read (cellsAt (a + 1) rest) c := by
        simp only [cellsAt]
        split
        · rfl
        · simp [Memory.read, Ne.symm hc]
      rw [step, ih]
      by_cases hin : a + 1 ≤ c ∧ c < a + 1 + rest.length
      · rw [dif_pos hin, dif_pos (by simp only [List.length_cons]; omega)]
        simp only [List.getElem_cons, show c - a ≠ 0 by omega, dif_neg, not_false_eq_true]
        congr 1
      · rw [dif_neg hin, dif_neg (by simp only [List.length_cons]; omega)]

/-- A new machine's memory has the canonical form, whatever its `FONT_DATA`. -/
theorem createdMemory_wf (font : Vector Byte 80) : Memory.wf (createdMemory font) = true :=
  cellsAt_wf (by simp [Config.fontBase])

/-- A new machine's memory is zero but for its `FONT_DATA` in the font table (R340). -/
theorem createdMemory_read (font : Vector Byte 80) (a : Nat) :
    Memory.read (createdMemory font) a =
      if h : 0x050 ≤ a ∧ a ≤ 0x09F then font[a - 0x050]'(by omega) else 0 := by
  unfold createdMemory
  rw [cellsAt_read]
  simp only [Vector.length_toList, Vector.getElem_toList]
  by_cases h : 0x050 ≤ a ∧ a ≤ 0x09F
  · rw [dif_pos h, dif_pos (by simp only [Config.fontBase]; omega)]
  · rw [dif_neg h, dif_neg (by simp only [Config.fontBase]; omega)]
    have hf : inFont a = false := by
      rw [Bool.eq_false_iff, ne_eq, inFont_iff]; exact h
    simp [unlistedByte, hf]

/-- With the default font a new machine's memory lists nothing. -/
theorem createdMemory_defaultFont : createdMemory defaultFont = [] := by decide

/-! ## The check of a write -/

/-- A write of up to 16 bytes: nothing fails, or the lowest missing address, or the lowest font address
(R14, R302, R304, R309). -/
theorem checkRange_write (a n : Nat) (hn : 0 < n) (h16 : n ≤ 16) :
    checkRange true a n =
      if 4096 < a + n then some (.addressOutOfRange (max a 4096))
      else if 0x050 < a + n ∧ a ≤ 0x09F then some (.fontRegionWrite (max a 0x050))
      else none := by
  split
  · next h =>
    refine checkRange_eq_some.mpr ⟨max a 4096 - a, by omega, ?_, fun i hi => ?_⟩
    · rw [show a + (max a 4096 - a) = max a 4096 by omega]
      simp [accessFault]
    · exact accessFault_eq_none.mpr ⟨by omega, by rw [inFont_iff]; omega⟩
  · split
    · next h1 h2 =>
      refine checkRange_eq_some.mpr ⟨max a 0x050 - a, by omega, ?_, fun i hi => ?_⟩
      · rw [show a + (max a 0x050 - a) = max a 0x050 by omega]
        have hf : inFont (max a 0x050) = true := inFont_iff.mpr (by omega)
        simp [accessFault, hf, Config.memSize]; omega
      · exact accessFault_eq_none.mpr ⟨by omega, by rw [inFont_iff]; omega⟩
    · exact checkRange_eq_none.mpr fun j hj => accessFault_eq_none.mpr ⟨by omega, by rw [inFont_iff]; omega⟩

end Sys2Proof.Machine
end

