-- ==== Sys2Proof/Laws/State.lean ====
section
/-! SUPPORT. For each operation on the state, one `simp` lemma per field: what the field is after it. -/

namespace Sys2Proof.Machine

variable (s : State)

/-! `V[x] <- v` changes `V` only. -/

@[simp] theorem State.setV_M (x : Reg) (v : Byte) : (s.setV x v).M = s.M := rfl
@[simp] theorem State.setV_V (x : Reg) (v : Byte) : (s.setV x v).V = s.V.set x v := rfl
@[simp] theorem State.setV_I (x : Reg) (v : Byte) : (s.setV x v).I = s.I := rfl
@[simp] theorem State.setV_pc (x : Reg) (v : Byte) : (s.setV x v).pc = s.pc := rfl
@[simp] theorem State.setV_S (x : Reg) (v : Byte) : (s.setV x v).S = s.S := rfl
@[simp] theorem State.setV_SP (x : Reg) (v : Byte) : (s.setV x v).SP = s.SP := rfl
@[simp] theorem State.setV_DT (x : Reg) (v : Byte) : (s.setV x v).DT = s.DT := rfl
@[simp] theorem State.setV_ST (x : Reg) (v : Byte) : (s.setV x v).ST = s.ST := rfl
@[simp] theorem State.setV_P (x : Reg) (v : Byte) : (s.setV x v).P = s.P := rfl
@[simp] theorem State.setV_halted (x : Reg) (v : Byte) : (s.setV x v).halted = s.halted := rfl
@[simp] theorem State.setV_fault (x : Reg) (v : Byte) : (s.setV x v).fault = s.fault := rfl
@[simp] theorem State.setV_inputs (x : Reg) (v : Byte) : (s.setV x v).inputs = s.inputs := rfl
@[simp] theorem State.setV_cycleNo (x : Reg) (v : Byte) : (s.setV x v).cycleNo = s.cycleNo := rfl
@[simp] theorem State.setV_outcome (x : Reg) (v : Byte) : (s.setV x v).outcome = s.outcome := rfl

/-! The flag write changes `V` only. -/

@[simp] theorem State.setFlag_M (b : Bool) : (s.setFlag b).M = s.M := rfl
@[simp] theorem State.setFlag_V (b : Bool) : (s.setFlag b).V = s.V.set VF (flagByte b) := rfl
@[simp] theorem State.setFlag_I (b : Bool) : (s.setFlag b).I = s.I := rfl
@[simp] theorem State.setFlag_pc (b : Bool) : (s.setFlag b).pc = s.pc := rfl
@[simp] theorem State.setFlag_S (b : Bool) : (s.setFlag b).S = s.S := rfl
@[simp] theorem State.setFlag_SP (b : Bool) : (s.setFlag b).SP = s.SP := rfl
@[simp] theorem State.setFlag_DT (b : Bool) : (s.setFlag b).DT = s.DT := rfl
@[simp] theorem State.setFlag_ST (b : Bool) : (s.setFlag b).ST = s.ST := rfl
@[simp] theorem State.setFlag_P (b : Bool) : (s.setFlag b).P = s.P := rfl
@[simp] theorem State.setFlag_halted (b : Bool) : (s.setFlag b).halted = s.halted := rfl
@[simp] theorem State.setFlag_fault (b : Bool) : (s.setFlag b).fault = s.fault := rfl
@[simp] theorem State.setFlag_inputs (b : Bool) : (s.setFlag b).inputs = s.inputs := rfl
@[simp] theorem State.setFlag_cycleNo (b : Bool) : (s.setFlag b).cycleNo = s.cycleNo := rfl
@[simp] theorem State.setFlag_outcome (b : Bool) : (s.setFlag b).outcome = s.outcome := rfl

/-! A result with its flag changes `V` only, the flag last. -/

@[simp] theorem State.setVFlag_M (x : Reg) (v : Byte) (b : Bool) : (s.setVFlag x v b).M = s.M := rfl
@[simp] theorem State.setVFlag_V (x : Reg) (v : Byte) (b : Bool) : (s.setVFlag x v b).V = (s.V.set x v).set VF (flagByte b) := rfl
@[simp] theorem State.setVFlag_I (x : Reg) (v : Byte) (b : Bool) : (s.setVFlag x v b).I = s.I := rfl
@[simp] theorem State.setVFlag_pc (x : Reg) (v : Byte) (b : Bool) : (s.setVFlag x v b).pc = s.pc := rfl
@[simp] theorem State.setVFlag_S (x : Reg) (v : Byte) (b : Bool) : (s.setVFlag x v b).S = s.S := rfl
@[simp] theorem State.setVFlag_SP (x : Reg) (v : Byte) (b : Bool) : (s.setVFlag x v b).SP = s.SP := rfl
@[simp] theorem State.setVFlag_DT (x : Reg) (v : Byte) (b : Bool) : (s.setVFlag x v b).DT = s.DT := rfl
@[simp] theorem State.setVFlag_ST (x : Reg) (v : Byte) (b : Bool) : (s.setVFlag x v b).ST = s.ST := rfl
@[simp] theorem State.setVFlag_P (x : Reg) (v : Byte) (b : Bool) : (s.setVFlag x v b).P = s.P := rfl
@[simp] theorem State.setVFlag_halted (x : Reg) (v : Byte) (b : Bool) : (s.setVFlag x v b).halted = s.halted := rfl
@[simp] theorem State.setVFlag_fault (x : Reg) (v : Byte) (b : Bool) : (s.setVFlag x v b).fault = s.fault := rfl
@[simp] theorem State.setVFlag_inputs (x : Reg) (v : Byte) (b : Bool) : (s.setVFlag x v b).inputs = s.inputs := rfl
@[simp] theorem State.setVFlag_cycleNo (x : Reg) (v : Byte) (b : Bool) : (s.setVFlag x v b).cycleNo = s.cycleNo := rfl
@[simp] theorem State.setVFlag_outcome (x : Reg) (v : Byte) (b : Bool) : (s.setVFlag x v b).outcome = s.outcome := rfl

/-! A register load changes `V` only. -/

@[simp] theorem State.setRegs_M (bytes : List Byte) : (s.setRegs bytes).M = s.M := by simp only [State.setRegs]
@[simp] theorem State.setRegs_V (bytes : List Byte) : (s.setRegs bytes).V = loadedRegs s.V bytes := rfl
@[simp] theorem State.setRegs_I (bytes : List Byte) : (s.setRegs bytes).I = s.I := by simp only [State.setRegs]
@[simp] theorem State.setRegs_pc (bytes : List Byte) : (s.setRegs bytes).pc = s.pc := by simp only [State.setRegs]
@[simp] theorem State.setRegs_S (bytes : List Byte) : (s.setRegs bytes).S = s.S := by simp only [State.setRegs]
@[simp] theorem State.setRegs_SP (bytes : List Byte) : (s.setRegs bytes).SP = s.SP := by simp only [State.setRegs]
@[simp] theorem State.setRegs_DT (bytes : List Byte) : (s.setRegs bytes).DT = s.DT := by simp only [State.setRegs]
@[simp] theorem State.setRegs_ST (bytes : List Byte) : (s.setRegs bytes).ST = s.ST := by simp only [State.setRegs]
@[simp] theorem State.setRegs_P (bytes : List Byte) : (s.setRegs bytes).P = s.P := by simp only [State.setRegs]
@[simp] theorem State.setRegs_halted (bytes : List Byte) : (s.setRegs bytes).halted = s.halted := by simp only [State.setRegs]
@[simp] theorem State.setRegs_fault (bytes : List Byte) : (s.setRegs bytes).fault = s.fault := by simp only [State.setRegs]
@[simp] theorem State.setRegs_inputs (bytes : List Byte) : (s.setRegs bytes).inputs = s.inputs := by simp only [State.setRegs]
@[simp] theorem State.setRegs_cycleNo (bytes : List Byte) : (s.setRegs bytes).cycleNo = s.cycleNo := by simp only [State.setRegs]
@[simp] theorem State.setRegs_outcome (bytes : List Byte) : (s.setRegs bytes).outcome = s.outcome := by simp only [State.setRegs]

/-! A fatal error changes the halt state only (R311). -/

@[simp] theorem State.raise_M (f : Fault) : (s.raise f).M = s.M := rfl
@[simp] theorem State.raise_V (f : Fault) : (s.raise f).V = s.V := rfl
@[simp] theorem State.raise_I (f : Fault) : (s.raise f).I = s.I := rfl
@[simp] theorem State.raise_pc (f : Fault) : (s.raise f).pc = s.pc := rfl
@[simp] theorem State.raise_S (f : Fault) : (s.raise f).S = s.S := rfl
@[simp] theorem State.raise_SP (f : Fault) : (s.raise f).SP = s.SP := rfl
@[simp] theorem State.raise_DT (f : Fault) : (s.raise f).DT = s.DT := rfl
@[simp] theorem State.raise_ST (f : Fault) : (s.raise f).ST = s.ST := rfl
@[simp] theorem State.raise_P (f : Fault) : (s.raise f).P = s.P := rfl
@[simp] theorem State.raise_halted (f : Fault) : (s.raise f).halted = true := rfl
@[simp] theorem State.raise_fault (f : Fault) : (s.raise f).fault = some f := rfl
@[simp] theorem State.raise_inputs (f : Fault) : (s.raise f).inputs = s.inputs := rfl
@[simp] theorem State.raise_cycleNo (f : Fault) : (s.raise f).cycleNo = s.cycleNo := rfl
@[simp] theorem State.raise_outcome (f : Fault) : (s.raise f).outcome = s.outcome := rfl

/-! The advance changes `pc` only. -/

@[simp] theorem State.advance_M : s.advance.M = s.M := rfl
@[simp] theorem State.advance_V : s.advance.V = s.V := rfl
@[simp] theorem State.advance_I : s.advance.I = s.I := rfl
@[simp] theorem State.advance_pc : s.advance.pc = s.pc + 2 := rfl
@[simp] theorem State.advance_S : s.advance.S = s.S := rfl
@[simp] theorem State.advance_SP : s.advance.SP = s.SP := rfl
@[simp] theorem State.advance_DT : s.advance.DT = s.DT := rfl
@[simp] theorem State.advance_ST : s.advance.ST = s.ST := rfl
@[simp] theorem State.advance_P : s.advance.P = s.P := rfl
@[simp] theorem State.advance_halted : s.advance.halted = s.halted := rfl
@[simp] theorem State.advance_fault : s.advance.fault = s.fault := rfl
@[simp] theorem State.advance_inputs : s.advance.inputs = s.inputs := rfl
@[simp] theorem State.advance_cycleNo : s.advance.cycleNo = s.cycleNo := rfl
@[simp] theorem State.advance_outcome : s.advance.outcome = s.outcome := rfl

/-! A jump changes `pc` only. -/

@[simp] theorem State.jump_M (target : Word) : (s.jump target).M = s.M := rfl
@[simp] theorem State.jump_V (target : Word) : (s.jump target).V = s.V := rfl
@[simp] theorem State.jump_I (target : Word) : (s.jump target).I = s.I := rfl
@[simp] theorem State.jump_pc (target : Word) : (s.jump target).pc = target := rfl
@[simp] theorem State.jump_S (target : Word) : (s.jump target).S = s.S := rfl
@[simp] theorem State.jump_SP (target : Word) : (s.jump target).SP = s.SP := rfl
@[simp] theorem State.jump_DT (target : Word) : (s.jump target).DT = s.DT := rfl
@[simp] theorem State.jump_ST (target : Word) : (s.jump target).ST = s.ST := rfl
@[simp] theorem State.jump_P (target : Word) : (s.jump target).P = s.P := rfl
@[simp] theorem State.jump_halted (target : Word) : (s.jump target).halted = s.halted := rfl
@[simp] theorem State.jump_fault (target : Word) : (s.jump target).fault = s.fault := rfl
@[simp] theorem State.jump_inputs (target : Word) : (s.jump target).inputs = s.inputs := rfl
@[simp] theorem State.jump_cycleNo (target : Word) : (s.jump target).cycleNo = s.cycleNo := rfl
@[simp] theorem State.jump_outcome (target : Word) : (s.jump target).outcome = s.outcome := rfl

/-! A skip changes `pc` only. -/

@[simp] theorem State.skipIf_M (c : Bool) : (s.skipIf c).M = s.M := by cases c <;> rfl
@[simp] theorem State.skipIf_V (c : Bool) : (s.skipIf c).V = s.V := by cases c <;> rfl
@[simp] theorem State.skipIf_I (c : Bool) : (s.skipIf c).I = s.I := by cases c <;> rfl
@[simp] theorem State.skipIf_pc (c : Bool) : (s.skipIf c).pc = if c then s.pc + 2 else s.pc := by cases c <;> rfl
@[simp] theorem State.skipIf_S (c : Bool) : (s.skipIf c).S = s.S := by cases c <;> rfl
@[simp] theorem State.skipIf_SP (c : Bool) : (s.skipIf c).SP = s.SP := by cases c <;> rfl
@[simp] theorem State.skipIf_DT (c : Bool) : (s.skipIf c).DT = s.DT := by cases c <;> rfl
@[simp] theorem State.skipIf_ST (c : Bool) : (s.skipIf c).ST = s.ST := by cases c <;> rfl
@[simp] theorem State.skipIf_P (c : Bool) : (s.skipIf c).P = s.P := by cases c <;> rfl
@[simp] theorem State.skipIf_halted (c : Bool) : (s.skipIf c).halted = s.halted := by cases c <;> rfl
@[simp] theorem State.skipIf_fault (c : Bool) : (s.skipIf c).fault = s.fault := by cases c <;> rfl
@[simp] theorem State.skipIf_inputs (c : Bool) : (s.skipIf c).inputs = s.inputs := by cases c <;> rfl
@[simp] theorem State.skipIf_cycleNo (c : Bool) : (s.skipIf c).cycleNo = s.cycleNo := by cases c <;> rfl
@[simp] theorem State.skipIf_outcome (c : Bool) : (s.skipIf c).outcome = s.outcome := by cases c <;> rfl

/-! The tick changes the timers only. -/

@[simp] theorem State.tick_M : s.tick.M = s.M := rfl
@[simp] theorem State.tick_V : s.tick.V = s.V := rfl
@[simp] theorem State.tick_I : s.tick.I = s.I := rfl
@[simp] theorem State.tick_pc : s.tick.pc = s.pc := rfl
@[simp] theorem State.tick_S : s.tick.S = s.S := rfl
@[simp] theorem State.tick_SP : s.tick.SP = s.SP := rfl
@[simp] theorem State.tick_DT : s.tick.DT = countDown s.DT := rfl
@[simp] theorem State.tick_ST : s.tick.ST = countDown s.ST := rfl
@[simp] theorem State.tick_P : s.tick.P = s.P := rfl
@[simp] theorem State.tick_halted : s.tick.halted = s.halted := rfl
@[simp] theorem State.tick_fault : s.tick.fault = s.fault := rfl
@[simp] theorem State.tick_inputs : s.tick.inputs = s.inputs := rfl
@[simp] theorem State.tick_cycleNo : s.tick.cycleNo = s.cycleNo := rfl
@[simp] theorem State.tick_outcome : s.tick.outcome = s.outcome := rfl

/-! The end of a cycle changes the model's own fields only. -/

@[simp] theorem State.report_M (o : Option CycleOutcome) : (s.report o).M = s.M := rfl
@[simp] theorem State.report_V (o : Option CycleOutcome) : (s.report o).V = s.V := rfl
@[simp] theorem State.report_I (o : Option CycleOutcome) : (s.report o).I = s.I := rfl
@[simp] theorem State.report_pc (o : Option CycleOutcome) : (s.report o).pc = s.pc := rfl
@[simp] theorem State.report_S (o : Option CycleOutcome) : (s.report o).S = s.S := rfl
@[simp] theorem State.report_SP (o : Option CycleOutcome) : (s.report o).SP = s.SP := rfl
@[simp] theorem State.report_DT (o : Option CycleOutcome) : (s.report o).DT = s.DT := rfl
@[simp] theorem State.report_ST (o : Option CycleOutcome) : (s.report o).ST = s.ST := rfl
@[simp] theorem State.report_P (o : Option CycleOutcome) : (s.report o).P = s.P := rfl
@[simp] theorem State.report_halted (o : Option CycleOutcome) : (s.report o).halted = s.halted := rfl
@[simp] theorem State.report_fault (o : Option CycleOutcome) : (s.report o).fault = s.fault := rfl
@[simp] theorem State.report_inputs (o : Option CycleOutcome) : (s.report o).inputs = s.inputs.tail := rfl
@[simp] theorem State.report_cycleNo (o : Option CycleOutcome) : (s.report o).cycleNo = s.cycleNo + 1 := rfl
@[simp] theorem State.report_outcome (o : Option CycleOutcome) : (s.report o).outcome = o := rfl

/-! The end of a completed cycle: timers and the model's own fields. -/

@[simp] theorem State.complete_M (diag : Option Word) : (s.complete diag).M = s.M := rfl
@[simp] theorem State.complete_V (diag : Option Word) : (s.complete diag).V = s.V := rfl
@[simp] theorem State.complete_I (diag : Option Word) : (s.complete diag).I = s.I := rfl
@[simp] theorem State.complete_pc (diag : Option Word) : (s.complete diag).pc = s.pc := rfl
@[simp] theorem State.complete_S (diag : Option Word) : (s.complete diag).S = s.S := rfl
@[simp] theorem State.complete_SP (diag : Option Word) : (s.complete diag).SP = s.SP := rfl
@[simp] theorem State.complete_DT (diag : Option Word) : (s.complete diag).DT = countDown s.DT := rfl
@[simp] theorem State.complete_ST (diag : Option Word) : (s.complete diag).ST = countDown s.ST := rfl
@[simp] theorem State.complete_P (diag : Option Word) : (s.complete diag).P = s.P := rfl
@[simp] theorem State.complete_halted (diag : Option Word) : (s.complete diag).halted = s.halted := rfl
@[simp] theorem State.complete_fault (diag : Option Word) : (s.complete diag).fault = s.fault := rfl
@[simp] theorem State.complete_inputs (diag : Option Word) : (s.complete diag).inputs = s.inputs.tail := rfl
@[simp] theorem State.complete_cycleNo (diag : Option Word) : (s.complete diag).cycleNo = s.cycleNo + 1 := rfl
@[simp] theorem State.complete_outcome (diag : Option Word) : (s.complete diag).outcome = some (.ok s.beep diag) := rfl

/-! The end of a halted cycle changes the model's own fields only. -/

@[simp] theorem State.endHalted_M : s.endHalted.M = s.M := rfl
@[simp] theorem State.endHalted_V : s.endHalted.V = s.V := rfl
@[simp] theorem State.endHalted_I : s.endHalted.I = s.I := rfl
@[simp] theorem State.endHalted_pc : s.endHalted.pc = s.pc := rfl
@[simp] theorem State.endHalted_S : s.endHalted.S = s.S := rfl
@[simp] theorem State.endHalted_SP : s.endHalted.SP = s.SP := rfl
@[simp] theorem State.endHalted_DT : s.endHalted.DT = s.DT := rfl
@[simp] theorem State.endHalted_ST : s.endHalted.ST = s.ST := rfl
@[simp] theorem State.endHalted_P : s.endHalted.P = s.P := rfl
@[simp] theorem State.endHalted_halted : s.endHalted.halted = s.halted := rfl
@[simp] theorem State.endHalted_fault : s.endHalted.fault = s.fault := rfl
@[simp] theorem State.endHalted_inputs : s.endHalted.inputs = s.inputs.tail := rfl
@[simp] theorem State.endHalted_cycleNo : s.endHalted.cycleNo = s.cycleNo + 1 := rfl
@[simp] theorem State.endHalted_outcome : s.endHalted.outcome = s.fault.map CycleOutcome.fatal := rfl

/-! Reading a register after a write. -/

@[simp] theorem State.getV_eq (x : Reg) : s.getV x = s.V[x] := rfl

theorem State.setV_get_same (x : Reg) (v : Byte) : (s.setV x v).V[x] = v := by simp

theorem State.setV_get_other {x r : Reg} (v : Byte) (h : r ≠ x) : (s.setV x v).V[r] = s.V[r] := by
  have : x.val ≠ r.val := fun e => h (Fin.ext e.symm)
  simp [this]

/-- The flag is what remains in `VF`, also when `x = 0xF` (R31). -/
theorem State.setVFlag_get_flag (x : Reg) (v : Byte) (b : Bool) : (s.setVFlag x v b).V[VF] = flagByte b := by simp

theorem State.setVFlag_get_result {x : Reg} (v : Byte) (b : Bool) (h : x ≠ VF) : (s.setVFlag x v b).V[x] = v := by
  have : (15 : Nat) ≠ x.val := fun e => h (Fin.ext e.symm)
  simp [this]

theorem State.setVFlag_get_other {x r : Reg} (v : Byte) (b : Bool) (h : r ≠ x) (hf : r ≠ VF) :
    (s.setVFlag x v b).V[r] = s.V[r] := by
  have h1 : x.val ≠ r.val := fun e => h (Fin.ext e.symm)
  have h2 : (15 : Nat) ≠ r.val := fun e => hf (Fin.ext e.symm)
  simp [h1, h2]

theorem State.setRegs_get (bytes : List Byte) (r : Reg) :
    (s.setRegs bytes).V[r] = bytes.getD r.val s.V[r] := by simp [loadedRegs]

/-! The inputs of a cycle the host has supplied. -/

@[simp] theorem State.keys_supplied (input : CycleInput) (rest : List CycleInput) :
    State.keys { s with inputs := input :: rest } = input.K := rfl

@[simp] theorem State.random_supplied (input : CycleInput) (rest : List CycleInput) :
    State.random { s with inputs := input :: rest } = input.r := rfl

@[simp] theorem State.advance_keys : s.advance.keys = s.keys := rfl

@[simp] theorem State.advance_random : s.advance.random = s.random := rfl

/-! Creation sets every field. -/

@[simp] theorem State.create_M (init : Config.Init) : (State.create init).M = createdMemory init.font := rfl
@[simp] theorem State.create_V (init : Config.Init) : (State.create init).V = init.V := rfl
@[simp] theorem State.create_I (init : Config.Init) : (State.create init).I = 0 := rfl
@[simp] theorem State.create_pc (init : Config.Init) : (State.create init).pc = 0x200 := rfl
@[simp] theorem State.create_S (init : Config.Init) : (State.create init).S = init.S := rfl
@[simp] theorem State.create_SP (init : Config.Init) : (State.create init).SP = 0 := rfl
@[simp] theorem State.create_DT (init : Config.Init) : (State.create init).DT = init.DT := rfl
@[simp] theorem State.create_ST (init : Config.Init) : (State.create init).ST = init.ST := rfl
@[simp] theorem State.create_P (init : Config.Init) : (State.create init).P = Vector.replicate 32 (Vector.replicate 64 false) := rfl
@[simp] theorem State.create_halted (init : Config.Init) : (State.create init).halted = false := rfl
@[simp] theorem State.create_fault (init : Config.Init) : (State.create init).fault = none := rfl
@[simp] theorem State.create_inputs (init : Config.Init) : (State.create init).inputs = [] := rfl
@[simp] theorem State.create_cycleNo (init : Config.Init) : (State.create init).cycleNo = 0 := rfl
@[simp] theorem State.create_outcome (init : Config.Init) : (State.create init).outcome = none := rfl

end Sys2Proof.Machine
end

