-- ==== Sys2Proof/Laws/Ops.lean ====
section
/-! SUPPORT. One lemma per shared operation and per stage of a cycle that says everything it can do; proofs cite these
and do not unfold the operations. -/

namespace Sys2Proof.Machine

variable {s t : State}

/-! ## Raising -/

/-- An access goes on with its value or raises its fault. -/
theorem orRaise_cases {α : Type} {r : Except Fault α} {k : α → State} (h : orRaise s r k = t) :
    (∃ v, r = .ok v ∧ t = k v) ∨ (∃ f, r = .error f ∧ t = s.raise f) := by
  cases r with
  | ok v => exact Or.inl ⟨v, rfl, h.symm⟩
  | error f => exact Or.inr ⟨f, rfl, h.symm⟩

@[simp] theorem orRaise_ok {α : Type} (v : α) (k : α → State) : orRaise s (.ok v) k = k v := rfl

@[simp] theorem orRaise_error {α : Type} (f : Fault) (k : α → State) : orRaise s (.error f) k = s.raise f := rfl

/-! ## Memory accesses -/

/-- A read of `n` bytes from `a`: the bytes when all exist, else the lowest missing address (R13, R302). -/
theorem State.loadBytes_eq (s : State) (a n : Nat) :
    s.loadBytes a n =
      if n = 0 ∨ a + n ≤ 4096 then .ok (s.M.readBytes a n) else .error (.addressOutOfRange (max a 4096)) := by
  unfold State.loadBytes
  rw [checkRange_read]
  split <;> simp_all

/-- A write of 1 to 16 bytes at `a`: all of them, or the first failing address and nothing written
(R14, R15, R309). -/
theorem State.storeBytes_eq (s : State) (a : Nat) (bytes : List Byte) (h0 : 0 < bytes.length)
    (h16 : bytes.length ≤ 16) :
    s.storeBytes a bytes =
      if 4096 < a + bytes.length then .error (.addressOutOfRange (max a 4096))
      else if 0x050 < a + bytes.length ∧ a ≤ 0x09F then .error (.fontRegionWrite (max a 0x050))
      else .ok { s with M := s.M.writeBytes a bytes } := by
  unfold State.storeBytes
  rw [checkRange_write _ _ h0 h16]
  by_cases h1 : 4096 < a + bytes.length
  · simp [h1]
  · by_cases h2 : 0x050 < a + bytes.length ∧ a ≤ 0x09F <;> simp [h1, h2]

@[simp] theorem State.regBytes_length (s : State) (x : Reg) : (s.regBytes x).length = x.val + 1 := by
  have := x.isLt
  simp [State.regBytes]

theorem State.regBytes_getElem (s : State) (x : Reg) (j : Nat) (h : j < (s.regBytes x).length) :
    (s.regBytes x)[j] = s.V[j]'(by have := x.isLt; rw [State.regBytes_length] at h; omega) := by
  simp [State.regBytes]

/-! ## The call stack -/

/-- A push either stores at `S[SP]` and raises `SP`, or finds the stack full (R40, R41). -/
theorem State.push_cases (s : State) (v : Word) :
    (∃ h : s.SP.val < 16, s.push v = .ok { s with S := s.S.set s.SP.val v, SP := ⟨s.SP.val + 1, by omega⟩ }) ∨
    (s.SP.val = 16 ∧ s.push v = .error (.stackOverflow (s.pc - 2))) := by
  by_cases h : s.SP.val < 16
  · exact Or.inl ⟨h, by simp [State.push, h]⟩
  · exact Or.inr ⟨by omega, by simp [State.push, h, State.instrAddress]⟩

/-- A pop either lowers `SP` and gives `S[SP]`, or finds the stack empty (R40, R41). -/
theorem State.pop_cases (s : State) :
    (∃ h : 0 < s.SP.val, s.pop = .ok (s.S[s.SP.val - 1]'(by omega), { s with SP := ⟨s.SP.val - 1, by omega⟩ })) ∨
    (s.SP.val = 0 ∧ s.pop = .error (.stackUnderflow (s.pc - 2))) := by
  by_cases h : 0 < s.SP.val
  · exact Or.inl ⟨h, by simp [State.pop, h]⟩
  · exact Or.inr ⟨by omega, by simp [State.pop, h, State.instrAddress]⟩

/-! ## Skips -/

/-- A skip is one change of `pc` (R36 b). -/
theorem State.skipIf_eq (s : State) (c : Bool) : s.skipIf c = { s with pc := if c then s.pc + 2 else s.pc } := by
  cases c <;> rfl

/-! ## Keys -/

/-- A register value is a key index up to 15, and a fault above (R256). -/
theorem keyOperand_cases (v : Byte) :
    (∃ h : v.toNat < 16, keyOperand v = .ok ⟨v.toNat, h⟩) ∨
    (15 < v.toNat ∧ keyOperand v = .error (.keyIndexOutOfRange v)) := by
  by_cases h : v.toNat < 16
  · exact Or.inl ⟨h, by simp [keyOperand, keyIndex, h]⟩
  · exact Or.inr ⟨by omega, by simp [keyOperand, keyIndex, h]⟩

/-- No key is found exactly when none is held (R253). -/
theorem lowestHeld_eq_none {K : Vector Bool 16} : lowestHeld K = none ↔ ∀ i : Fin 16, K[i] = false := by
  simp [lowestHeld]

/-- The key found is held, and no lower one is (R253). -/
theorem lowestHeld_eq_some {K : Vector Bool 16} {k : Fin 16} (h : lowestHeld K = some k) :
    K[k] = true ∧ ∀ i : Fin 16, i < k → K[i] = false := by
  unfold lowestHeld at h
  rw [List.find?_eq_some_iff_getElem] at h
  obtain ⟨hk, n, hn, hkn, hlt⟩ := h
  refine ⟨hk, fun i hi => ?_⟩
  have hn' : n < 16 := by simpa using hn
  have hval : n = k.val := by rw [← hkn]; simp
  have := hlt i.val (by rw [hval]; exact hi)
  simpa using this

/-! ## Stages of a cycle -/

/-- A timer one tick later: one less, never below 0 (R137). -/
theorem countDown_toNat (v : Byte) : (countDown v).toNat = v.toNat - 1 := by
  unfold countDown
  split
  · have := v.isLt
    rw [BitVec.toNat_sub, show (1 : Byte).toNat = 1 from rfl]; omega
  · omega

theorem State.fetch_inside (h : s.pc.toNat + 1 < 4096) :
    s.fetch = .ok (wordOfBytes (s.M.read s.pc.toNat) (s.M.read (s.pc.toNat + 1))) := by
  unfold State.fetch
  rw [checkRange_read, if_pos (by omega)]

theorem State.fetch_outside (h : 4096 ≤ s.pc.toNat + 1) :
    s.fetch = .error (.addressOutOfRange (max s.pc.toNat 4096)) := by
  unfold State.fetch
  rw [checkRange_read, if_neg (by omega)]

theorem step_halted (h : s.halted = true) : step s = .next s.endHalted := by
  simp [step, h, haltedCycle]

theorem step_fetchFault (h : s.halted = false) (hpc : 4096 ≤ s.pc.toNat + 1) :
    step s = .next (s.raise (.addressOutOfRange (max s.pc.toNat 4096))).endHalted := by
  simp [step, h, State.fetch_outside hpc, fetchFaultCycle]

theorem step_decoded {i : Instr} (h : s.halted = false) (hpc : s.pc.toNat + 1 < 4096)
    (hi : decode (wordOfBytes (s.M.read s.pc.toNat) (s.M.read (s.pc.toNat + 1))) = .ok i) :
    step s = afterExec (exec i s.advance) := by
  simp [step, h, State.fetch_inside hpc, hi]

theorem step_unknown {e : DecodeError} (h : s.halted = false) (hpc : s.pc.toNat + 1 < 4096)
    (he : decode (wordOfBytes (s.M.read s.pc.toNat) (s.M.read (s.pc.toNat + 1))) = .error e) :
    step s =
      .next (s.advance.complete (some (wordOfBytes (s.M.read s.pc.toNat) (s.M.read (s.pc.toNat + 1))))) := by
  simp [step, h, State.fetch_inside hpc, he, unknownCycle]

/-- Everything a step that answers a next state can have been: a halted cycle, a fetch fault, an Unknown word, or an
instruction followed by the end of the cycle (R141). -/
theorem step_cases (h : step s = .next t) :
    (s.halted = true ∧ t = s.endHalted) ∨
    (s.halted = false ∧ 4096 ≤ s.pc.toNat + 1 ∧
      t = (s.raise (.addressOutOfRange (max s.pc.toNat 4096))).endHalted) ∨
    (s.halted = false ∧ s.pc.toNat + 1 < 4096 ∧ ∃ w, t = s.advance.complete (some w)) ∨
    (s.halted = false ∧ s.pc.toNat + 1 < 4096 ∧ ∃ i u,
      decode (wordOfBytes (s.M.read s.pc.toNat) (s.M.read (s.pc.toNat + 1))) = .ok i ∧
      exec i s.advance = .next u ∧ t = u.endCycle none) := by
  cases hh : s.halted with
  | true =>
    rw [step_halted hh] at h
    exact Or.inl ⟨rfl, by injection h with h; exact h.symm⟩
  | false =>
    right
    by_cases hpc : s.pc.toNat + 1 < 4096
    · right
      cases hd : decode (wordOfBytes (s.M.read s.pc.toNat) (s.M.read (s.pc.toNat + 1))) with
      | error e =>
        rw [step_unknown hh hpc hd] at h
        exact Or.inl ⟨rfl, hpc, _, by injection h with h; exact h.symm⟩
      | ok i =>
        rw [step_decoded hh hpc hd] at h
        cases hx : exec i s.advance with
        | next u =>
          rw [hx] at h
          exact Or.inr ⟨rfl, hpc, i, u, rfl, hx, by simp only [afterExec] at h; injection h with h; exact h.symm⟩
        | fault f => rw [hx] at h; simp [afterExec] at h
        | refused r => rw [hx] at h; simp [afterExec] at h
    · rw [step_fetchFault hh (by omega)] at h
      exact Or.inl ⟨rfl, by omega, by injection h with h; exact h.symm⟩

/-! ## Runs -/

/-- One more cycle at the front of a run. -/
theorem runCycles_succ (h : step s = .next t) (k : Nat) : runCycles (k + 1) s = runCycles k t := by
  simp [runCycles, h]

/-- A run of `j + k` cycles is a run of `j` followed by a run of `k`. -/
theorem runCycles_add {j k : Nat} (h : runCycles j s = .next t) : runCycles (j + k) s = runCycles k t := by
  induction j generalizing s with
  | zero => simp only [runCycles] at h; injection h with h; rw [Nat.zero_add, h]
  | succ j ih =>
    cases hs : step s with
    | next u =>
      rw [runCycles_succ hs] at h
      rw [show j + 1 + k = j + k + 1 by omega, runCycles_succ hs, ih h]
    | fault f => simp [runCycles, hs] at h
    | refused r => simp [runCycles, hs] at h

/-- `runCycles` is the host's `run` of the machine. -/
theorem runCycles_eq_run (k : Nat) (s : State) : runCycles k s = Host.Core.run Sys2Proof.core k s := by
  induction k generalizing s with
  | zero => rfl
  | succ k ih =>
    have core_step : Sys2Proof.core.step s = step s := rfl
    simp only [Host.Core.run, core_step]
    cases hs : step s with
    | next t => rw [runCycles_succ hs]; exact ih t
    | fault f => simp only [runCycles, hs]; rfl
    | refused r => simp only [runCycles, hs]; rfl

end Sys2Proof.Machine
end

