-- ==== Sys2Proof/Laws/PerInstr.lean ====
section
/-! SUPPORT. The per-instruction family EncodeRow: the word of a well-formed instruction matches the instruction's row
of spec/30_encoding.md R105. -/

namespace Sys2Proof.Laws

/-- A word of shape `op nnn` matches the row of its high nibble. -/
theorem wordNNN_matches {op : Nat} (h : op < 16) (nnn : BitVec 12) :
    OpcodeRow.matches { value := BitVec.ofNat 16 (op * 4096), mask := 0xF000 } (wordNNN op nnn) = true := by
  have := nnn.isLt
  rw [matches_F000, wordNNN_toNat h, BitVec.toNat_ofNat]; omega

/-- A word of shape `op x kk` matches the row of its high nibble. -/
theorem wordXKK_matches {op : Nat} (h : op < 16) (x : Reg) (kk : Byte) :
    OpcodeRow.matches { value := BitVec.ofNat 16 (op * 4096), mask := 0xF000 } (wordXKK op x kk) = true := by
  have := kk.isLt; have := x.isLt
  rw [matches_F000, wordXKK_toNat h, BitVec.toNat_ofNat]; omega

/-- A word of shape `op x kk` matches the row of its high nibble and low byte. -/
theorem wordXKK_matches_low {op : Nat} (h : op < 16) (x : Reg) (kk : Byte) :
    OpcodeRow.matches { value := BitVec.ofNat 16 (op * 4096 + kk.toNat), mask := 0xF0FF } (wordXKK op x kk) = true := by
  have := kk.isLt; have := x.isLt
  rw [matches_F0FF, wordXKK_toNat h, BitVec.toNat_ofNat]; omega

/-- A word of shape `op x y n` matches the row of its high nibble. -/
theorem wordXYN_matches {op : Nat} (h : op < 16) (x y : Reg) (n : Fin 16) :
    OpcodeRow.matches { value := BitVec.ofNat 16 (op * 4096), mask := 0xF000 } (wordXYN op x y n) = true := by
  have := x.isLt; have := y.isLt; have := n.isLt
  rw [matches_F000, wordXYN_toNat h, BitVec.toNat_ofNat]; omega

/-- A word of shape `op x y n` matches the row of its high and low nibbles. -/
theorem wordXYN_matches_low {op : Nat} (h : op < 16) (x y : Reg) (n : Fin 16) :
    OpcodeRow.matches { value := BitVec.ofNat 16 (op * 4096 + n.val), mask := 0xF00F } (wordXYN op x y n) = true := by
  have := x.isLt; have := y.isLt; have := n.isLt
  rw [matches_F00F, wordXYN_toNat h, BitVec.toNat_ofNat]; omega

/-- The word of a well-formed instruction matches its row. -/
def EncodeRow.Statement (i : Instr) : Prop := i.wellFormed = true → i.row.matches (encode i) = true

/-- `SYS`: the exceptions of its row are the two ill-formed terms. -/
theorem EncodeRow.sys (nnn : BitVec 12) : EncodeRow.Statement (.sys nnn) := by
  intro hw
  have hlt := nnn.isLt
  simp only [Instr.wellFormed, Bool.and_eq_true, bne_iff_ne, ne_eq, ← BitVec.toNat_inj] at hw
  have hword := wordNNN_toNat (op := 0) (by omega) nnn
  simp only [Instr.row, OpcodeRow.matches, encode, Bool.and_eq_true, beq_iff_eq]
  constructor
  · apply BitVec.eq_of_toNat_eq
    refine (mask_F000 _).trans ?_
    rw [hword]; simp; omega
  · have h1 : wordNNN 0 nnn ≠ 0x00E0 := by
      rw [ne_eq, ← BitVec.toNat_inj, hword]; simpa using hw.1
    have h2 : wordNNN 0 nnn ≠ 0x00EE := by
      rw [ne_eq, ← BitVec.toNat_inj, hword]; simpa using hw.2
    simp only [List.contains_cons, List.contains_nil, Bool.or_false, Bool.not_eq_true', Bool.or_eq_false_iff,
      beq_eq_false_iff_ne]
    exact ⟨h1, h2⟩

theorem EncodeRow.cls : EncodeRow.Statement .cls := fun _ => by decide

theorem EncodeRow.ret : EncodeRow.Statement .ret := fun _ => by decide

theorem EncodeRow.jp (nnn : BitVec 12) : EncodeRow.Statement (.jp nnn) := fun _ => wordNNN_matches (by decide) nnn

theorem EncodeRow.call (nnn : BitVec 12) : EncodeRow.Statement (.call nnn) := fun _ => wordNNN_matches (by decide) nnn

theorem EncodeRow.seImm (x : Reg) (kk : Byte) : EncodeRow.Statement (.seImm x kk) := fun _ => wordXKK_matches (by decide) x kk

theorem EncodeRow.sneImm (x : Reg) (kk : Byte) : EncodeRow.Statement (.sneImm x kk) := fun _ => wordXKK_matches (by decide) x kk

theorem EncodeRow.seReg (x y : Reg) : EncodeRow.Statement (.seReg x y) := fun _ => wordXYN_matches_low (by decide) x y _

theorem EncodeRow.ldImm (x : Reg) (kk : Byte) : EncodeRow.Statement (.ldImm x kk) := fun _ => wordXKK_matches (by decide) x kk

theorem EncodeRow.addImm (x : Reg) (kk : Byte) : EncodeRow.Statement (.addImm x kk) := fun _ => wordXKK_matches (by decide) x kk

theorem EncodeRow.ldReg (x y : Reg) : EncodeRow.Statement (.ldReg x y) := fun _ => wordXYN_matches_low (by decide) x y _

theorem EncodeRow.orReg (x y : Reg) : EncodeRow.Statement (.orReg x y) := fun _ => wordXYN_matches_low (by decide) x y _

theorem EncodeRow.andReg (x y : Reg) : EncodeRow.Statement (.andReg x y) := fun _ => wordXYN_matches_low (by decide) x y _

theorem EncodeRow.xorReg (x y : Reg) : EncodeRow.Statement (.xorReg x y) := fun _ => wordXYN_matches_low (by decide) x y _

theorem EncodeRow.addReg (x y : Reg) : EncodeRow.Statement (.addReg x y) := fun _ => wordXYN_matches_low (by decide) x y _

theorem EncodeRow.subReg (x y : Reg) : EncodeRow.Statement (.subReg x y) := fun _ => wordXYN_matches_low (by decide) x y _

theorem EncodeRow.shr (x y : Reg) : EncodeRow.Statement (.shr x y) := fun _ => wordXYN_matches_low (by decide) x y _

theorem EncodeRow.subnReg (x y : Reg) : EncodeRow.Statement (.subnReg x y) := fun _ => wordXYN_matches_low (by decide) x y _

theorem EncodeRow.shl (x y : Reg) : EncodeRow.Statement (.shl x y) := fun _ => wordXYN_matches_low (by decide) x y _

theorem EncodeRow.sneReg (x y : Reg) : EncodeRow.Statement (.sneReg x y) := fun _ => wordXYN_matches_low (by decide) x y _

theorem EncodeRow.ldI (nnn : BitVec 12) : EncodeRow.Statement (.ldI nnn) := fun _ => wordNNN_matches (by decide) nnn

theorem EncodeRow.jpV0 (nnn : BitVec 12) : EncodeRow.Statement (.jpV0 nnn) := fun _ => wordNNN_matches (by decide) nnn

theorem EncodeRow.rnd (x : Reg) (kk : Byte) : EncodeRow.Statement (.rnd x kk) := fun _ => wordXKK_matches (by decide) x kk

theorem EncodeRow.drw (x y : Reg) (n : Fin 16) : EncodeRow.Statement (.drw x y n) := fun _ => wordXYN_matches (by decide) x y n

theorem EncodeRow.skp (x : Reg) : EncodeRow.Statement (.skp x) := fun _ => wordXKK_matches_low (by decide) x _

theorem EncodeRow.sknp (x : Reg) : EncodeRow.Statement (.sknp x) := fun _ => wordXKK_matches_low (by decide) x _

theorem EncodeRow.ldFromDT (x : Reg) : EncodeRow.Statement (.ldFromDT x) := fun _ => wordXKK_matches_low (by decide) x _

theorem EncodeRow.ldKey (x : Reg) : EncodeRow.Statement (.ldKey x) := fun _ => wordXKK_matches_low (by decide) x _

theorem EncodeRow.ldDT (x : Reg) : EncodeRow.Statement (.ldDT x) := fun _ => wordXKK_matches_low (by decide) x _

theorem EncodeRow.ldST (x : Reg) : EncodeRow.Statement (.ldST x) := fun _ => wordXKK_matches_low (by decide) x _

theorem EncodeRow.addI (x : Reg) : EncodeRow.Statement (.addI x) := fun _ => wordXKK_matches_low (by decide) x _

theorem EncodeRow.ldF (x : Reg) : EncodeRow.Statement (.ldF x) := fun _ => wordXKK_matches_low (by decide) x _

theorem EncodeRow.ldB (x : Reg) : EncodeRow.Statement (.ldB x) := fun _ => wordXKK_matches_low (by decide) x _

theorem EncodeRow.storeRegs (x : Reg) : EncodeRow.Statement (.storeRegs x) := fun _ => wordXKK_matches_low (by decide) x _

theorem EncodeRow.loadRegs (x : Reg) : EncodeRow.Statement (.loadRegs x) := fun _ => wordXKK_matches_low (by decide) x _

end Sys2Proof.Laws
end

