-- ==== Sys2Proof/Tests/Slice0.lean ====
section
/-! SUPPORT. The model's own tests. Expected results are the patterns of spec/30_encoding.md R105 and the vectors of
spec/95_test_vectors.md (named in each comment); the witnesses at the end show that the hypotheses of the statements
can be met, at the boundaries of their ranges. -/

namespace Sys2Proof.Tests

open Sys2Proof.Machine

/-! ## Well-formedness: the one check (R105 row 1) -/

theorem test_wellFormed_refuses_sys_at_CLS : (Instr.sys 0x0E0).wellFormed = false := by decide
theorem test_wellFormed_refuses_sys_at_RET : (Instr.sys 0x0EE).wellFormed = false := by decide
theorem test_wellFormed_takes_sys_beside_them :
    (Instr.sys 0x0DF).wellFormed = true ∧ (Instr.sys 0x0EF).wellFormed = true := by decide

/-! ## Decoding: a word of each row, written out from its pattern in R105 -/

-- 0nnn, nnn = 123
theorem test_decode_sys : decode 0b0000_0001_0010_0011 = .ok (.sys 0x123) := by decide
-- 00E0
theorem test_decode_cls : decode 0b0000_0000_1110_0000 = .ok .cls := by decide
-- 00EE
theorem test_decode_ret : decode 0b0000_0000_1110_1110 = .ok .ret := by decide
-- 1nnn, nnn = ABC
theorem test_decode_jp : decode 0b0001_1010_1011_1100 = .ok (.jp 0xABC) := by decide
-- 2nnn, nnn = ABC
theorem test_decode_call : decode 0b0010_1010_1011_1100 = .ok (.call 0xABC) := by decide
-- 3xkk, x = 1, kk = 05
theorem test_decode_seImm : decode 0b0011_0001_0000_0101 = .ok (.seImm 1 0x05) := by decide
-- 4xkk, x = 1, kk = 05
theorem test_decode_sneImm : decode 0b0100_0001_0000_0101 = .ok (.sneImm 1 0x05) := by decide
-- 5xy0, x = 1, y = 2
theorem test_decode_seReg : decode 0b0101_0001_0010_0000 = .ok (.seReg 1 2) := by decide
-- 6xkk, x = A, kk = 2B
theorem test_decode_ldImm : decode 0b0110_1010_0010_1011 = .ok (.ldImm 0xA 0x2B) := by decide
-- 7xkk, x = F, kk = 01
theorem test_decode_addImm : decode 0b0111_1111_0000_0001 = .ok (.addImm 0xF 0x01) := by decide
-- 8xy0, x = 1, y = 2
theorem test_decode_ldReg : decode 0b1000_0001_0010_0000 = .ok (.ldReg 1 2) := by decide
-- 8xy1, x = 1, y = 2
theorem test_decode_orReg : decode 0b1000_0001_0010_0001 = .ok (.orReg 1 2) := by decide
-- 8xy2, x = 1, y = 2
theorem test_decode_andReg : decode 0b1000_0001_0010_0010 = .ok (.andReg 1 2) := by decide
-- 8xy3, x = 1, y = 2
theorem test_decode_xorReg : decode 0b1000_0001_0010_0011 = .ok (.xorReg 1 2) := by decide
-- 8xy4, x = 1, y = 2
theorem test_decode_addReg : decode 0b1000_0001_0010_0100 = .ok (.addReg 1 2) := by decide
-- 8xy5, x = 1, y = 2
theorem test_decode_subReg : decode 0b1000_0001_0010_0101 = .ok (.subReg 1 2) := by decide
-- 8xy6, x = 3, y = 4 (V4 of the vectors)
theorem test_decode_shr : decode 0b1000_0011_0100_0110 = .ok (.shr 3 4) := by decide
-- 8xy7, x = 1, y = 2
theorem test_decode_subnReg : decode 0b1000_0001_0010_0111 = .ok (.subnReg 1 2) := by decide
-- 8xyE, x = 3, y = 4
theorem test_decode_shl : decode 0b1000_0011_0100_1110 = .ok (.shl 3 4) := by decide
-- 9xy0, x = 1, y = 2
theorem test_decode_sneReg : decode 0b1001_0001_0010_0000 = .ok (.sneReg 1 2) := by decide
-- Annn, nnn = 123
theorem test_decode_ldI : decode 0b1010_0001_0010_0011 = .ok (.ldI 0x123) := by decide
-- Bnnn, nnn = 300
theorem test_decode_jpV0 : decode 0b1011_0011_0000_0000 = .ok (.jpV0 0x300) := by decide
-- Cxkk, x = 1, kk = 0F
theorem test_decode_rnd : decode 0b1100_0001_0000_1111 = .ok (.rnd 1 0x0F) := by decide
-- Dxyn, x = 0, y = 1, n = 5
theorem test_decode_drw : decode 0b1101_0000_0001_0101 = .ok (.drw 0 1 5) := by decide
-- Ex9E, x = 2
theorem test_decode_skp : decode 0b1110_0010_1001_1110 = .ok (.skp 2) := by decide
-- ExA1, x = 2
theorem test_decode_sknp : decode 0b1110_0010_1010_0001 = .ok (.sknp 2) := by decide
-- Fx07, x = 1
theorem test_decode_ldFromDT : decode 0b1111_0001_0000_0111 = .ok (.ldFromDT 1) := by decide
-- Fx0A, x = 3
theorem test_decode_ldKey : decode 0b1111_0011_0000_1010 = .ok (.ldKey 3) := by decide
-- Fx15, x = 0
theorem test_decode_ldDT : decode 0b1111_0000_0001_0101 = .ok (.ldDT 0) := by decide
-- Fx18, x = 0
theorem test_decode_ldST : decode 0b1111_0000_0001_1000 = .ok (.ldST 0) := by decide
-- Fx1E, x = 1
theorem test_decode_addI : decode 0b1111_0001_0001_1110 = .ok (.addI 1) := by decide
-- Fx29, x = 0
theorem test_decode_ldF : decode 0b1111_0000_0010_1001 = .ok (.ldF 0) := by decide
-- Fx33, x = 4
theorem test_decode_ldB : decode 0b1111_0100_0011_0011 = .ok (.ldB 4) := by decide
-- Fx55, x = F
theorem test_decode_storeRegs : decode 0b1111_1111_0101_0101 = .ok (.storeRegs 0xF) := by decide
-- Fx65, x = 4
theorem test_decode_loadRegs : decode 0b1111_0100_0110_0101 = .ok (.loadRegs 4) := by decide

/-- The unknown words of V1, V2 and V3, each rejected by name. -/
theorem test_decode_unknown :
    ∀ w ∈ [0x5121, 0x8008, 0xE000, 0xF000, 0xFFFF, 0x9001, 0x800F, 0xE19F, 0xF01F],
      decode (BitVec.ofNat 16 w) = .error (.unknown (BitVec.ofNat 16 w)) := by decide

/-- Two bytes are taken, the rest is left; one byte is too few. -/
theorem test_decodeBytes :
    decodeBytes [0x60, 0x05, 0xF0] = .ok (.ldImm 0 0x05, [0xF0]) ∧ decodeBytes [0x60] = .error .truncated := by decide

/-- The host's entry: `LD V0, 0x05` (R84's example) and an unknown word. -/
theorem test_decodeTableWord :
    decodeTableWord 16 0x6005 = some (.ldImm 0 0x05) ∧ decodeTableWord 16 0x8008 = none := by decide

/-! ## One step -/

/-- No key held. -/
def noKeys : Vector Bool 16 := Vector.replicate 16 false

/-- The vectors' start state with `word` at 0x200, one input supplied (no key, `r = 0`). -/
def start (word : Nat) : State := { State.reset.withFetchWord 16 word with inputs := [{ K := noKeys, r := 0 }] }

/-- A register file that is zero but for the listed registers. -/
def regs (l : List (Reg × Byte)) : Vector Byte 16 := l.foldl (fun V p => V.set p.1 p.2) (Vector.replicate 16 0)

/-- The start state with registers set. -/
def startV (word : Nat) (l : List (Reg × Byte)) : State := { start word with V := regs l }

/-- The state with bytes placed in memory. -/
def place (s : State) (a : Nat) (bytes : List Byte) : State := { s with M := s.M.writeBytes a bytes }

/-- The state with a key vector and a random byte supplied first. -/
def supply (s : State) (K : Vector Bool 16) (r : Byte) : State := { s with inputs := { K := K, r := r } :: s.inputs }

/-- What one step leaves, where it answers a next state. -/
def after (s : State) (p : State → Bool) : Bool :=
  match step s with
  | .next t => p t
  | .fault _ => false
  | .refused _ => false

-- C1
theorem test_sys : after (start 0x0123) fun t => t.pc == 0x202 && t.outcome == some (.ok false none) := by decide
-- D1
theorem test_cls : after { startV 0x00E0 [(0xF, 0x55)] with P := Display.flip Display.clear 63 31 }
    fun t => !t.P.get 63 31 && t.V[15] == 0x55 := by decide
-- C7
theorem test_ret : after { start 0x00EE with SP := 2, S := (Vector.replicate 16 0).set 1 0x456 }
    fun t => t.SP.val == 1 && t.pc == 0x456 && t.S[1] == 0x456 := by decide
-- V11
theorem test_ret_underflow : after { start 0x00EE with DT := 5 }
    fun t => t.outcome == some (.fatal (.stackUnderflow 0x200)) && t.pc == 0x202 && t.DT == 5 && t.halted := by decide
-- C2
theorem test_jp : after (start 0x1ABC) fun t => t.pc == 0xABC := by decide
-- C5
theorem test_call_sixteenth : after { start 0x2ABC with SP := 15 }
    fun t => t.S[15] == 0x202 && t.SP.val == 16 && t.pc == 0xABC && !t.halted := by decide
-- C6
theorem test_call_overflow : after { start 0x2ABC with SP := 16 }
    fun t => t.fault == some (.stackOverflow 0x200) && t.pc == 0x202 && t.SP.val == 16 && t.halted := by decide
-- C20
theorem test_seImm : after (startV 0x3F07 [(0xF, 7)]) fun t => t.pc == 0x204 := by decide
-- C10
theorem test_seImm_unequal : after (startV 0x3105 [(1, 6)]) fun t => t.pc == 0x202 := by decide
-- C11
theorem test_sneImm_equal : after (startV 0x4105 [(1, 5)]) fun t => t.pc == 0x202 := by decide
-- C12
theorem test_sneImm : after (startV 0x4105 [(1, 6)]) fun t => t.pc == 0x204 := by decide
-- C13
theorem test_seReg : after (startV 0x5120 [(1, 9), (2, 9)]) fun t => t.pc == 0x204 := by decide
-- C14
theorem test_sneReg : after (startV 0x9120 [(1, 9), (2, 8)]) fun t => t.pc == 0x204 := by decide
-- C15
theorem test_sneReg_equal : after (startV 0x9120 [(1, 9), (2, 9)]) fun t => t.pc == 0x202 := by decide
-- A1
theorem test_ldImm : after (startV 0x6A2B [(0xF, 0x55)]) fun t => t.V[10] == 0x2B && t.V[15] == 0x55 := by decide
-- A3
theorem test_addImm : after (startV 0x7101 [(1, 0xFF), (0xF, 0x55)]) fun t => t.V[1] == 0 && t.V[15] == 0x55 := by
  decide
-- A5
theorem test_ldReg : after (startV 0x8120 [(2, 0x9C), (0xF, 0x55)]) fun t => t.V[1] == 0x9C && t.V[15] == 0x55 := by
  decide
-- A6
theorem test_orReg : after (startV 0x8121 [(1, 0x0C), (2, 0x03), (0xF, 0x55)])
    fun t => t.V[1] == 0x0F && t.V[15] == 0x55 := by decide
-- A7
theorem test_andReg : after (startV 0x8122 [(1, 0x0C), (2, 0x0A), (0xF, 0x55)])
    fun t => t.V[1] == 0x08 && t.V[15] == 0x55 := by decide
-- A8
theorem test_xorReg : after (startV 0x8123 [(1, 0x0C), (2, 0x0A), (0xF, 0x55)])
    fun t => t.V[1] == 0x06 && t.V[15] == 0x55 := by decide
-- A14
theorem test_addReg_into_flag : after (startV 0x8F24 [(0xF, 0x10), (2, 0x20)]) fun t => t.V[15] == 0 := by decide
-- A15
theorem test_addReg_from_flag : after (startV 0x81F4 [(1, 0x01), (0xF, 0xFF)])
    fun t => t.V[1] == 0 && t.V[15] == 1 := by decide
-- A16
theorem test_subReg : after (startV 0x8125 [(2, 0xFF), (0xF, 0x55)]) fun t => t.V[1] == 1 && t.V[15] == 0 := by decide
-- W2, equal operands
theorem test_subReg_equal : after (startV 0x8125 [(1, 5), (2, 5), (0xF, 0x55)])
    fun t => t.V[1] == 0 && t.V[15] == 0 := by decide
-- A24
theorem test_shr : after (startV 0x8346 [(3, 0x04), (4, 0xFF), (0xF, 0x55)])
    fun t => t.V[3] == 0x02 && t.V[15] == 0 && t.V[4] == 0xFF := by decide
-- A26
theorem test_shr_flag : after (startV 0x8F06 [(0xF, 0x03)]) fun t => t.V[15] == 1 := by decide
-- A19
theorem test_subnReg : after (startV 0x8127 [(1, 3), (2, 5)]) fun t => t.V[1] == 2 && t.V[15] == 1 := by decide
-- A20
theorem test_subnReg_borrow : after (startV 0x8127 [(1, 5), (2, 3), (0xF, 0x55)])
    fun t => t.V[1] == 0xFE && t.V[15] == 0 := by decide
-- A28
theorem test_shl : after (startV 0x830E [(3, 0xFF)]) fun t => t.V[3] == 0xFE && t.V[15] == 1 := by decide
-- A30
theorem test_shl_flag : after (startV 0x8F0E [(0xF, 0x40)]) fun t => t.V[15] == 0 := by decide
-- M1
theorem test_ldI : after (start 0xA123) fun t => t.I == 0x123 := by decide
-- C18
theorem test_jpV0 : after (startV 0xBFFF [(0, 0xFF)]) fun t => t.pc == 0x10FE && !t.halted := by decide
-- A31
theorem test_rnd : after (supply (start 0xC10F) noKeys 0xB7) fun t => t.V[1] == 0x07 := by decide
-- W5: the columns and rows of the glyph's corner
theorem test_drw_glyph : after { startV 0xD005 [(0xF, 0x55)] with I := 0x050 } fun t =>
    t.P.get 0 0 && t.P.get 3 0 && !t.P.get 4 0 && t.P.get 0 1 && !t.P.get 1 1 && t.P.get 3 1 && t.P.get 1 4 &&
      t.V[15] == 0 := by decide
-- D12
theorem test_drw_clips_and_collides :
    after { place (startV 0xD011 [(0, 62)]) 0x300 [0xFF] with I := 0x300, P := Display.flip Display.clear 63 0 }
      fun t => t.P.get 62 0 && !t.P.get 63 0 && !t.P.get 0 0 && t.V[15] == 1 := by decide
-- K1
theorem test_skp : after (supply (startV 0xE29E [(2, 0xA)]) (noKeys.set 10 true) 0) fun t => t.pc == 0x204 := by decide
-- K5
theorem test_skp_bad_index : after { startV 0xE29E [(2, 0x10)] with DT := 3 }
    fun t => t.fault == some (.keyIndexOutOfRange 0x10) && t.pc == 0x202 && t.DT == 3 := by decide
-- K3
theorem test_sknp : after (startV 0xE2A1 [(2, 0xA)]) fun t => t.pc == 0x204 := by decide
-- K4
theorem test_sknp_held : after (supply (startV 0xE2A1 [(2, 0xA)]) (noKeys.set 10 true) 0) fun t => t.pc == 0x202 := by
  decide
-- K10
theorem test_ldFromDT : after { start 0xF107 with DT := 4 } fun t => t.V[1] == 4 && t.DT == 3 := by decide
-- W8
theorem test_ldKey_waits : after { startV 0xF30A [(3, 0x77)] with DT := 5 }
    fun t => t.pc == 0x200 && t.V[3] == 0x77 && t.DT == 4 && t.outcome == some (.ok false none) := by decide
-- K8
theorem test_ldKey_lowest : after (supply (start 0xF30A) ((noKeys.set 7 true).set 3 true) 0)
    fun t => t.V[3] == 3 && t.pc == 0x202 := by decide
-- K12
theorem test_ldDT : after (startV 0xF015 [(0, 5)]) fun t => t.DT == 4 := by decide
-- K14
theorem test_ldDT_zero : after { startV 0xF015 [(0, 0)] with DT := 9 } fun t => t.DT == 0 := by decide
-- K15
theorem test_ldST : after (startV 0xF018 [(0, 1)]) fun t => t.ST == 0 && t.outcome == some (.ok true none) := by decide
-- K17
theorem test_ldST_zero : after { startV 0xF018 [(0, 0)] with ST := 1 }
    fun t => t.ST == 0 && t.outcome == some (.ok false none) := by decide
-- M3
theorem test_addI : after { startV 0xF11E [(1, 0x20), (0xF, 0x55)] with I := 0xFFF0 }
    fun t => t.I == 0x0010 && t.V[15] == 0x55 := by decide
-- M7
theorem test_ldF : after (startV 0xF029 [(0, 0xFF)]) fun t => t.I == 0x54B && !t.halted := by decide
-- W7
theorem test_ldB : after { startV 0xF433 [(4, 0xFF)] with I := 0x400 }
    fun t => t.M.readBytes 0x400 3 == [2, 5, 5] && t.I == 0x400 := by decide
-- M15
theorem test_ldB_font : after { startV 0xF033 [(0, 7)] with I := 0x04E }
    fun t => t.fault == some (.fontRegionWrite 0x050) && t.M.readBytes 0x04E 2 == [0, 0] := by decide
-- M17
theorem test_storeRegs : after { startV 0xF255 [(0, 1), (1, 2), (2, 3), (3, 4)] with I := 0x300 }
    fun t => t.M.readBytes 0x300 4 == [1, 2, 3, 0] && t.I == 0x300 := by decide
-- M19
theorem test_storeRegs_out_of_range : after { startV 0xFF55 [(0, 9)] with I := 0xFF8 }
    fun t => t.fault == some (.addressOutOfRange 0x1000) && t.M.readBytes 0xFF8 1 == [0] := by decide
-- M23
theorem test_loadRegs : after { startV 0xF465 [(5, 0x77)] with I := 0x050 }
    fun t => t.V.toList.take 6 == [0xF0, 0x90, 0x90, 0x90, 0xF0, 0x77] && t.I == 0x050 := by decide
-- M24
theorem test_loadRegs_out_of_range : after { start 0xF465 with I := 0xFFC }
    fun t => t.fault == some (.addressOutOfRange 0x1000) && t.V == regs [] := by decide

/-! ## The cycle around an instruction -/

-- V2
theorem test_unknown_cycle : after { start 0x8008 with DT := 3, ST := 1 } fun t =>
    t.outcome == some (.ok true (some 0x8008)) && t.pc == 0x202 && t.DT == 2 && t.ST == 0 := by decide
-- V6
theorem test_fetch_past_memory : after { start 0 with pc := 0x1000, DT := 3 } fun t =>
    t.outcome == some (.fatal (.addressOutOfRange 0x1000)) && t.pc == 0x1000 && t.DT == 3 && t.halted := by decide
-- V7
theorem test_fetch_across_the_end : after (place { start 0 with pc := 0x0FFF } 0xFFF [0x60])
    fun t => t.fault == some (.addressOutOfRange 0x1000) && t.pc == 0x0FFF := by decide
-- V8
theorem test_fetch_odd : after (place { start 0 with pc := 0x201 } 0x201 [0x60, 0x07])
    fun t => t.V[0] == 7 && t.pc == 0x203 := by decide
-- V9
theorem test_halted_cycle :
    after { start 0x6005 with halted := true, fault := some (.stackOverflow 0x204), DT := 9 } fun t =>
      t.outcome == some (.fatal (.stackOverflow 0x204)) && t.DT == 9 && t.pc == 0x200 && t.V[0] == 0 := by decide
-- K19
theorem test_no_beep_on_fault : after { start 0x00EE with ST := 1 } fun t => t.ST == 1 && t.halted := by decide

/-- `withFetchWord` stores the two bytes at `pc`, high byte first (R84's example, `6005` at 0x200). -/
theorem test_withFetchWord : (State.reset.withFetchWord 16 0x6005).M = [(0x200, 0x60), (0x201, 0x05)] := by decide

/-- A `FONT_DATA` other than the default: byte `k` is `k + 1`. -/
def otherFont : Vector Byte 80 := ⟨((List.range 80).map fun k => BitVec.ofNat 8 (k + 1)).toArray, by decide⟩

/-- The parameter `FONT_DATA` is what the font table of a new machine holds (R340), and nothing around it. -/
theorem test_create_with_another_font :
    Memory.readBytes (State.create { namedInit with font := otherFont }).M 0x04F 3 = [0, 1, 2] ∧
    Memory.readBytes (State.create { namedInit with font := otherFont }).M 0x09E 3 = [79, 80, 0] ∧
    State.reset.M = [] := by decide

-- L1, and L5 on a halted machine
theorem test_loadRom :
    (match loadRom true [0x60, 0x05, 0xF0, 0x33] { State.reset with halted := true } with
      | .ok t => t.M.readBytes 0x1FF 6 == [0, 0x60, 0x05, 0xF0, 0x33, 0] && t.halted
      | .error _ => false) = true := by decide

/-! ## Witnesses: states and operands that meet a statement's hypotheses, a boundary of the range for each clause -/

theorem witness_DecodeOfEncodeIsIdentity : (Instr.sys 0x0E1).wellFormed = true ∧ (Instr.drw 15 15 15).wellFormed = true := by
  decide

theorem witness_EncodeOfDecodeIsIdentity : decode 0x00E1 = .ok (.sys 0x0E1) ∧ decode 0xFF65 = .ok (.loadRegs 15) := by
  decide

theorem witness_DecodeAgreesWithOpcodeTable : decode 0x0000 = .ok (.sys 0) ∧ decode 0xFF66 = .error (.unknown 0xFF66) ∧
    (∃ r ∈ opcodeTable, r.matches 0xFF65 = true) := by decide

/-- The last word of memory can be fetched; it holds `LD V0, 0x05`. -/
theorem witness_StepRunsDecodedInstruction :
    let s := place { start 0 with pc := 0xFFE } 0xFFE [0x60, 0x05]
    s.halted = false ∧ s.pc.toNat ≤ 4094 ∧ decode s.wordAtPc = .ok (.ldImm 0 0x05) := by decide

theorem witness_UnknownWordOnlyAdvancesAndTicks :
    let s := start 0x8008
    s.halted = false ∧ s.pc.toNat ≤ 4094 ∧ decode s.wordAtPc = .error (.unknown 0x8008) := by decide

/-- `pc` at 4094 (fetched), 4095, 4096 and 65535 (not fetched). -/
theorem witness_FetchReadsBigEndianOrFaults :
    ({ start 0 with pc := 0xFFE } : State).pc.toNat ≤ 4094 ∧
    ∀ a ∈ [0x0FFF, 0x1000, 0xFFFF], ({ start 0 with pc := BitVec.ofNat 16 a } : State).halted = false ∧
      4095 ≤ ({ start 0 with pc := BitVec.ofNat 16 a } : State).pc.toNat := by decide

theorem witness_HaltedMachineStaysAsItIs :
    let s := (start 0x6005).raise (.stackOverflow 0x204)
    s.halted = true ∧ s.fault = some (.stackOverflow 0x204) := by decide

/-- Both clauses: `LD [I], VF` over the end of memory raises, one byte lower it does not. -/
theorem witness_FatalErrorsAreRaisedExactlyAndPrecisely :
    let s : State := { start 0 with I := 0xFF1 }
    s.halted = false ∧ raisedBy (.storeRegs 15) s = some (.addressOutOfRange 0x1000) ∧
      raisedBy (.storeRegs 14) s = none := by decide

theorem witness_FatalCycleKeepsAdvanceOnly :
    let s := start 0x00EE
    s.halted = false ∧ s.pc.toNat ≤ 4094 ∧ decode s.wordAtPc = .ok .ret ∧
      raisedBy .ret { s with pc := s.pc + 2 } = some (.stackUnderflow 0x200) := by decide

/-- `LD V1, [I]` names V0 and V1, so V2 is a register it does not name; and no key is held in the start state. -/
theorem witness_OnlyTableInstructionsWriteRegisters :
    (∃ t, exec (.loadRegs 1) (start 0) = .next t) ∧ ¬ writesReg (.loadRegs 1) 2 ∧
      (∃ t, exec (.ldKey 3) (start 0) = .next t) ∧ ∀ k : Fin 16, (start 0).keys[k] = false :=
  ⟨⟨_, rfl⟩, by simp [writesReg], ⟨_, rfl⟩, by decide⟩

/-- Every clause: `CLS` writes none of `I`, `S`, `SP`, `DT`, `ST`, memory; `RET` not the display; the stores leave the
bytes just below and just above theirs. -/
theorem witness_OnlyNamedInstructionsWriteOtherState :
    let s : State := { start 0 with I := 0x300 }
    (∃ t, exec .cls s = .next t) ∧ writesI .cls = false ∧ (∀ nnn, Instr.cls ≠ .call nnn) ∧ Instr.cls ≠ .ret ∧
      writesDT .cls = false ∧ writesST .cls = false ∧ writesDisplay .ret = false ∧ writesMemory .cls = false ∧
      (∃ t, exec (.ldB 0) s = .next t) ∧ 0x2FF < s.indexAddress 0 ∧ s.indexAddress 0 + 3 ≤ 0x303 ∧
      (∃ t, exec (.storeRegs 15) s = .next t) ∧ s.indexAddress 0 + ((15 : Reg).val + 1) ≤ 0x310 :=
  ⟨⟨_, rfl⟩, rfl, by simp, by simp, rfl, rfl, rfl, rfl, ⟨_, rfl⟩, by decide, by decide, ⟨_, rfl⟩, by decide⟩

/-- Each kind of change: a jump, a call (taken, and with the stack full), a return (taken, and with the stack empty), a
skip, a wait for a key, and an instruction that leaves `pc`. -/
theorem witness_PcChangesOnlyAsRuled :
    (∀ i ∈ [Instr.jp 0xABC, .call 0xABC, .jpV0 0xFFF, .ret, .seImm 0 0, .ldKey 0, .cls],
      ∃ t, exec i (start 0) = .next t) ∧
    (∀ n ∈ [(15 : Fin 17), 16], ∃ t, exec (.call 0xABC) { start 0 with SP := n } = .next t) ∧
    ({ start 0 with SP := 15 } : State).SP.val < 16 ∧ ({ start 0 with SP := 16 } : State).SP.val = 16 ∧
    0 < ({ start 0 with SP := 1 } : State).SP.val := by
  refine ⟨?_, fun _ _ => ⟨_, rfl⟩, by decide, by decide, by decide⟩
  simp only [List.mem_cons, List.not_mem_nil, or_false, forall_eq_or_imp, forall_eq]
  exact ⟨⟨_, rfl⟩, ⟨_, rfl⟩, ⟨_, rfl⟩, ⟨_, rfl⟩, ⟨_, rfl⟩, ⟨_, rfl⟩, ⟨_, rfl⟩⟩

theorem witness_RandomByteIsReadOnlyByRnd :
    readsRandom (.drw 0 0 5) = false ∧
      ∃ t, exec (.drw 0 0 5) { start 0 with inputs := { K := noKeys, r := 7 } :: [] } = .next t :=
  ⟨rfl, _, rfl⟩

theorem witness_KeysAreReadOnlyByKeyInstructions :
    readsKeys (.rnd 1 0x0F) = false ∧
      ∃ t, exec (.rnd 1 0x0F) { start 0 with inputs := { K := noKeys, r := 7 } :: [] } = .next t :=
  ⟨rfl, _, rfl⟩

/-- `SP` at 0 and at the last free place, and the full stack. -/
theorem witness_CallPushesReturnAddressOrOverflows :
    (start 0).SP.val < 16 ∧ ({ start 0 with SP := 15 } : State).SP.val < 16 ∧
      ({ start 0 with SP := 16 } : State).SP.val = 16 := by decide

/-- One entry, a full stack, and none. -/
theorem witness_RetPopsReturnAddressOrUnderflows :
    0 < ({ start 0 with SP := 1 } : State).SP.val ∧ 0 < ({ start 0 with SP := 16 } : State).SP.val ∧
      (start 0).SP.val = 0 := by decide

/-- W4: `CALL 0x300` at 0x200 with `SP = 3`, `RET` at 0x300; and the largest `SP`. -/
theorem witness_CallThenRetComesBack : ∀ n ∈ [(3 : Fin 17), 15],
    let s := place { start 0x2300 with SP := n } 0x300 [0x00, 0xEE]
    s.halted = false ∧ s.pc.toNat ≤ 4094 ∧ s.SP.val < 16 ∧ (0x300 : BitVec 12).toNat ≤ 4094 ∧
      decode s.wordAtPc = .ok (.call 0x300) ∧
      decode (wordOfBytes (s.M.read (0x300 : BitVec 12).toNat) (s.M.read ((0x300 : BitVec 12).toNat + 1))) = .ok .ret := by
  decide

/-- A destination that is not the flag register, for the clauses that ask for one (ADD, SUB, SUBN, SHR, SHL). -/
theorem witness_FlagInstructions : (1 : Reg) ≠ VF := by decide

/-- `n = 0` past memory, the last sprite that lies in memory, and one byte more. -/
theorem witness_DrwXorsTheSpriteAndFlagsCollision :
    ((0 : Fin 16).val = 0 ∨ ({ start 0 with I := 0xFFFF } : State).I.toNat + (0 : Fin 16).val ≤ 4096) ∧
    ((2 : Fin 16).val = 0 ∨ ({ start 0 with I := 0xFFE } : State).I.toNat + (2 : Fin 16).val ≤ 4096) ∧
    ((3 : Fin 16).val ≠ 0 ∧ 4096 < ({ start 0 with I := 0xFFE } : State).I.toNat + (3 : Fin 16).val) := by decide

/-- W5 and W6: the glyph "0" drawn twice in its place. -/
theorem witness_DrawingTwiceRestoresTheDisplay :
    ∃ s t s2 t2 : State, ((5 : Fin 16).val = 0 ∨ s.I.toNat + (5 : Fin 16).val ≤ 4096) ∧
      exec (.drw 0 0 5) s = .next t ∧ s2.V[(0 : Reg)] = s.V[(0 : Reg)] ∧ s2.I = s.I ∧ s2.P = t.P ∧
      (∀ j < (5 : Fin 16).val, s2.M.read (s2.indexAddress j) = s.M.read (s.indexAddress j)) ∧
      exec (.drw 0 0 5) s2 = .next t2 := by
  refine ⟨{ start 0xD005 with I := 0x050 }, _,
    { start 0xD005 with
      I := 0x050
      P := match exec (.drw 0 0 5) { start 0xD005 with I := 0x050 } with
        | .next t => t.P
        | _ => Display.clear },
    _, Or.inr (by decide), rfl, rfl, rfl, rfl, fun _ _ => rfl, rfl⟩

/-- Key index 15 and key index 16. -/
theorem witness_KeySkipsFollowTheKeyOrFault :
    (startV 0 [(2, 15)]).V[(2 : Reg)].toNat < 16 ∧ 15 < (startV 0 [(2, 16)]).V[(2 : Reg)].toNat := by decide

/-- No key; key 0 alone; keys 15 and 3, where 3 is the least. -/
theorem witness_WaitForKeyRewindsOrLoadsLowestKey :
    (∀ i : Fin 16, (start 0).keys[i] = false) ∧
    ((supply (start 0) (noKeys.set 0 true) 0).keys[(0 : Fin 16)] = true ∧
      ∀ i : Fin 16, i < 0 → (supply (start 0) (noKeys.set 0 true) 0).keys[i] = false) ∧
    ((supply (start 0) ((noKeys.set 15 true).set 3 true) 0).keys[(3 : Fin 16)] = true ∧
      ∀ i : Fin 16, i < 3 → (supply (start 0) ((noKeys.set 15 true).set 3 true) 0).keys[i] = false) := by decide

theorem witness_WaitForKeyCycleKeepsPcAndTicks :
    let s := start 0xF30A
    s.halted = false ∧ s.pc.toNat ≤ 4094 ∧ decode s.wordAtPc = .ok (.ldKey 3) ∧ ∀ i : Fin 16, s.keys[i] = false := by
  decide

theorem witness_TimerWritesTickInTheirOwnCycle :
    ((start 0xF015).halted = false ∧ (start 0xF015).pc.toNat ≤ 4094 ∧ decode (start 0xF015).wordAtPc = .ok (.ldDT 0)) ∧
    ((start 0xF018).halted = false ∧ (start 0xF018).pc.toNat ≤ 4094 ∧ decode (start 0xF018).wordAtPc = .ok (.ldST 0)) := by
  decide

/-- Two cycles of `SYS` over zeroed memory, `ST = 2` at the start. -/
theorem witness_SoundTimerBeepsOnceInItsCycle :
    ∃ t, runCycles 2 { start 0 with ST := 2 } = .next t ∧ t.halted = false ∧
      ∀ j ≤ 1, ∀ u, runCycles j { start 0 with ST := 2 } = .next u →
        u.halted = false ∧ ∀ x, decode u.wordAtPc ≠ .ok (.ldST x) := by
  refine ⟨_, rfl, by decide, fun j hj u hu => ?_⟩
  have hcases : j = 0 ∨ j = 1 := by omega
  rcases hcases with rfl | rfl
  · injection hu with hu
    subst hu
    exact ⟨by decide, by decide⟩
  · injection hu with hu
    subst hu
    exact ⟨by decide, by decide⟩

/-- Where the clauses of `LD B` meet: 0x04D below the font, 0x04E and 0x09F into it, 0x0A0 past it, 0xFFD the last place,
0xFFE one too high. -/
theorem witness_StoreBcdWritesThreeDigitsOrFaults :
    (start 0).M.wf = true ∧
    (∀ a ∈ [0x04D, 0x0A0, 0xFFD], ({ start 0 with I := BitVec.ofNat 16 a } : State).indexAddress 0 + 3 ≤ 4096 ∧
      (({ start 0 with I := BitVec.ofNat 16 a } : State).indexAddress 0 + 3 ≤ 0x050 ∨
        0x09F < ({ start 0 with I := BitVec.ofNat 16 a } : State).indexAddress 0)) ∧
    4096 < ({ start 0 with I := 0xFFE } : State).indexAddress 0 + 3 ∧
    (∀ a ∈ [0x04E, 0x09F], 0x050 < ({ start 0 with I := BitVec.ofNat 16 a } : State).indexAddress 0 + 3 ∧
      ({ start 0 with I := BitVec.ofNat 16 a } : State).indexAddress 0 ≤ 0x09F) := by decide

/-- The same for `LD [I], VF`, 16 bytes: 0x040 ends below the font, 0x041 and 0x09F reach it, 0x0A0 is past it, 0xFF0 is
the last place, 0xFF1 one too high. -/
theorem witness_RegisterDumpStoresV0ToVxOrFaults :
    (start 0).M.wf = true ∧
    (∀ a ∈ [0x040, 0x0A0, 0xFF0],
      ({ start 0 with I := BitVec.ofNat 16 a } : State).indexAddress 0 + ((15 : Reg).val + 1) ≤ 4096 ∧
      (({ start 0 with I := BitVec.ofNat 16 a } : State).indexAddress 0 + ((15 : Reg).val + 1) ≤ 0x050 ∨
        0x09F < ({ start 0 with I := BitVec.ofNat 16 a } : State).indexAddress 0)) ∧
    4096 < ({ start 0 with I := 0xFF1 } : State).indexAddress 0 + ((15 : Reg).val + 1) ∧
    (∀ a ∈ [0x041, 0x09F],
      0x050 < ({ start 0 with I := BitVec.ofNat 16 a } : State).indexAddress 0 + ((15 : Reg).val + 1) ∧
      ({ start 0 with I := BitVec.ofNat 16 a } : State).indexAddress 0 ≤ 0x09F) := by decide

theorem witness_RegisterLoadReadsV0ToVxOrFaults :
    ({ start 0 with I := 0xFF0 } : State).indexAddress 0 + ((15 : Reg).val + 1) ≤ 4096 ∧
    4096 < ({ start 0 with I := 0xFF1 } : State).indexAddress 0 + ((15 : Reg).val + 1) := by decide

/-- M27: `LD [I], V1` over the word at `pc` itself. -/
theorem witness_StoredBytesAreFetched :
    let s : State := { startV 0xF155 [(0, 0x12), (1, 0x34)] with I := 0x200 }
    0 + 1 ≤ (1 : Reg).val ∧ s.M.wf = true ∧ s.pc.toNat = s.indexAddress 0 ∧ raisedBy (.storeRegs 1) s = none ∧
      ∃ t, exec (.storeRegs 1) s = .next t :=
  ⟨by decide, by decide, by decide, by decide, _, rfl⟩

/-- Two ways to one memory: a byte written and written back, and no write. -/
theorem witness_CanonicalMemoriesWithEqualBytesAreEqual :
    let m := Memory.write (Memory.write [] 0x300 7) 0x300 0
    m.wf = true ∧ Memory.wf [] = true ∧ ∀ a, m.read a = Memory.read [] a :=
  ⟨by decide, by decide, fun _ => rfl⟩

/-- `LD B` just past the font; the last byte of the font. -/
theorem witness_NoStepChangesTheFont :
    (∃ t, step { startV 0xF033 [(0, 199)] with I := 0x0A0 } = .next t) ∧ inFont 0x09F = true :=
  ⟨⟨_, rfl⟩, by decide⟩

/-- A state in mid-run that meets the invariant: a subroutine entered by the `CALL` at 0xFFE, which pushed 0x1000, the
largest return address. -/
def midRun : State := { start 0x6005 with SP := 1, S := (Vector.replicate 16 0).set 0 0x1000, I := 0x0A0 }

theorem witness_EveryStepKeepsInvariant : midRun.Inv defaultFont ∧ ∃ t, step midRun = .next t :=
  ⟨⟨by decide, by unfold State.holdsFont; decide, by unfold State.stackBounded; decide, by unfold State.pcBounded; decide,
    rfl⟩, _, rfl⟩

/-- The largest ROM, and one byte more. -/
theorem witness_RomLoadCopiesOrFailsUnchanged :
    (start 0).M.wf = true ∧ (List.replicate 3584 (0 : Byte)).length ≤ 3584 ∧
      3584 < (List.replicate 3585 (0 : Byte)).length :=
  ⟨by decide, by rw [List.length_replicate], by rw [List.length_replicate]; decide⟩

theorem witness_RomLoadKeepsInvariant : midRun.Inv defaultFont ∧ ∃ t, loadRom true [0x60, 0x05] midRun = .ok t :=
  ⟨witness_EveryStepKeepsInvariant.1, _, rfl⟩

/-- A machine with another `FONT_DATA`, byte `k` of it being `k + 1`; digit 15, the last. -/
theorem witness_GlyphAddressNamesTheGlyphOfTheFont :
    let font : Vector Byte 80 := otherFont
    ({ State.create { namedInit with font := font } with V := regs [(3, 15)] } : State).holdsFont font ∧
      (regs [(3, 15)])[(3 : Reg)].toNat < 16 :=
  ⟨by unfold State.holdsFont; decide, by decide⟩

/-- The two ends of the display output, and of the ranges of the statement about creation. -/
theorem witness_DisplayOutputIsRowMajor : (63 < 64 ∧ 31 < 32) ∧ 31 * 64 + 63 < 2048 := by decide

end Sys2Proof.Tests
end

section
/-! The fatal errors of the execute stage (spec/60_exceptions.md R300 to R311): one lemma per raising access says that
it raises the error the rule names and nothing else, and each instruction is that access or keeps the halt state. -/

namespace Sys2Proof.Machine

variable {s : State}

/-- `r` answers the outcome an instruction with the fatal error `o` has from `s`: the error is taken with no other
effect (R311), or there is none and the halt state stays as it was. -/
inductive RaisesPrecisely (s : State) : (o : Option Fault) → (r : Result) → Prop where
  | raised (f : Fault) : RaisesPrecisely s (some f) (.next (s.raise f))
  | kept {t : State} (hh : t.halted = s.halted) (hf : t.fault = s.fault) : RaisesPrecisely s none (.next t)

namespace RaisesPrecisely

theorem raised_or_kept {o : Option Fault} {r : Result} (h : RaisesPrecisely s o r) :
    (∀ f, o = some f → r = .next { s with halted := true, fault := some f }) ∧
    (o = none → ∃ t, r = .next t ∧ t.halted = s.halted ∧ t.fault = s.fault) := by
  cases h with
  | raised f => exact ⟨fun g hg => by cases hg; rfl, nofun⟩
  | kept hh hf => exact ⟨nofun, fun _ => ⟨_, rfl, hh, hf⟩⟩

/-! ## Raising accesses -/

theorem orRaise_error {α : Type} {o : Option Fault} {r : Except Fault α} {k : α → State} {f : Fault}
    (ho : o = some f) (hr : r = .error f) : RaisesPrecisely s o (.next (orRaise s r k)) := by
  subst ho hr
  exact raised f

theorem orRaise_ok {α : Type} {o : Option Fault} {r : Except Fault α} {k : α → State} {v : α}
    (ho : o = none) (hr : r = .ok v) (hh : (k v).halted = s.halted) (hf : (k v).fault = s.fault) :
    RaisesPrecisely s o (.next (orRaise s r k)) := by
  subst ho hr
  exact kept hh hf

theorem orRaise_loadBytes (a n : Nat) (k : List Byte → State) (hh : ∀ bytes, (k bytes).halted = s.halted)
    (hf : ∀ bytes, (k bytes).fault = s.fault) :
    RaisesPrecisely s (readFault a n) (.next (orRaise s (s.loadBytes a n) k)) := by
  by_cases h : n = 0 ∨ a + n ≤ 4096
  · have none_missing : ¬(0 < n ∧ 4096 < a + n) := by omega
    exact orRaise_ok (if_neg none_missing) (by rw [State.loadBytes_eq, if_pos h]) (hh _) (hf _)
  · have missing : 0 < n ∧ 4096 < a + n := by omega
    exact orRaise_error (if_pos missing) (by rw [State.loadBytes_eq, if_neg h])

theorem orRaise_storeBytes (a : Nat) (bytes : List Byte) (h0 : 0 < bytes.length) (h16 : bytes.length ≤ 16) :
    RaisesPrecisely s (writeFault a bytes.length) (.next (orRaise s (s.storeBytes a bytes) id)) := by
  have stored := s.storeBytes_eq a bytes h0 h16
  unfold writeFault
  split at stored
  · next missing => exact orRaise_error (if_pos missing) stored
  · next present =>
    rw [if_neg present]
    split at stored
    · next font => exact orRaise_error (if_pos font) stored
    · next noFont => exact orRaise_ok (if_neg noFont) stored rfl rfl

theorem orRaise_keyOperand (v : Byte) (k : Fin 16 → State) (hh : ∀ j, (k j).halted = s.halted)
    (hf : ∀ j, (k j).fault = s.fault) :
    RaisesPrecisely s (if 15 < v.toNat then some (.keyIndexOutOfRange v) else none)
      (.next (orRaise s (keyOperand v) k)) := by
  obtain ⟨index, hv⟩ | ⟨above, hv⟩ := keyOperand_cases v
  · exact orRaise_ok (if_neg (by omega)) hv (hh _) (hf _)
  · exact orRaise_error (if_pos above) hv

/-! ## Instructions -/

theorem exec_ret (s : State) : RaisesPrecisely s (raisedBy .ret s) (exec .ret s) := by
  obtain ⟨used, hpop⟩ | ⟨empty, hpop⟩ := s.pop_cases
  · exact orRaise_ok (if_neg (by omega)) hpop rfl rfl
  · exact orRaise_error (if_pos empty) hpop

theorem exec_call (nnn : BitVec 12) (s : State) : RaisesPrecisely s (raisedBy (.call nnn) s) (exec (.call nnn) s) := by
  obtain ⟨room, hpush⟩ | ⟨full, hpush⟩ := s.push_cases s.pc
  · exact orRaise_ok (if_neg (by omega)) hpush rfl rfl
  · exact orRaise_error (if_pos full) hpush

theorem exec_storeRegs (x : Reg) (s : State) :
    RaisesPrecisely s (raisedBy (.storeRegs x) s) (exec (.storeRegs x) s) := by
  have count : (s.regBytes x).length = x.val + 1 := s.regBytes_length x
  have stored := orRaise_storeBytes (s := s) (s.indexAddress 0) (s.regBytes x) (by omega) (by omega)
  rwa [count] at stored

theorem exec_ldKey (x : Reg) (s : State) : RaisesPrecisely s (raisedBy (.ldKey x) s) (exec (.ldKey x) s) := by
  unfold exec execLdKey
  cases lowestHeld s.keys with
  | none => exact kept rfl rfl
  | some k => exact kept rfl rfl

end RaisesPrecisely

/-- The execute stage raises exactly the fatal error of R300 to R305, with no partial effect. -/
theorem exec_raisesPrecisely (i : Instr) (s : State) : RaisesPrecisely s (raisedBy i s) (exec i s) := by
  cases i with
  | ret => exact .exec_ret s
  | call nnn => exact .exec_call nnn s
  | skp x => exact .orRaise_keyOperand _ _ (fun _ => s.skipIf_halted _) fun _ => s.skipIf_fault _
  | sknp x => exact .orRaise_keyOperand _ _ (fun _ => s.skipIf_halted _) fun _ => s.skipIf_fault _
  | drw x y n => exact .orRaise_loadBytes _ _ _ (fun _ => rfl) fun _ => rfl
  | loadRegs x => exact .orRaise_loadBytes _ _ _ s.setRegs_halted s.setRegs_fault
  | ldB x => exact .orRaise_storeBytes _ (bcdDigits (s.getV x)) (by simp [bcdDigits]) (by simp [bcdDigits])
  | storeRegs x => exact .exec_storeRegs x s
  | ldKey x => exact .exec_ldKey x s
  | seImm | sneImm | seReg | sneReg => exact .kept (s.skipIf_halted _) (s.skipIf_fault _)
  | sys | cls | jp | ldImm | addImm | ldReg | orReg | andReg | xorReg | addReg | subReg | shr | subnReg | shl | ldI
  | jpV0 | rnd | ldFromDT | ldDT | ldST | addI | ldF => exact .kept rfl rfl

end Sys2Proof.Machine

namespace Sys2Proof.Proofs

open Sys2Proof.Machine

/-- Settles O10: every instruction is `RaisesPrecisely` for the error the rules give it. -/
theorem fatalErrorsAreRaisedExactlyAndPrecisely : Obligations.FatalErrorsAreRaisedExactlyAndPrecisely := by
  intro i s running
  have precise := (exec_raisesPrecisely i s).raised_or_kept
  rwa [running] at precise

end Sys2Proof.Proofs
end

section
/-! What an instruction writes (spec/10_state.md R32, R34, R40, R43, R44, R73): every instruction is one of the
effects of `Writes`, and the statements about single parts of the state are read off that one case split. -/

namespace Sys2Proof.Machine

variable {s : State}

/-- The state after `bytes` are stored at `I` upward (R85). -/
def State.stored (s : State) (bytes : List Byte) : State :=
  { s with M := s.M.writeBytes (s.indexAddress 0) bytes }

/-- No check stops a store of `bytes` at `I`: they lie in memory and clear of the font (R13, R14). -/
structure State.Storable (s : State) (bytes : List Byte) : Prop where
  fits : s.indexAddress 0 + bytes.length ≤ 4096
  clear : s.indexAddress 0 + bytes.length ≤ 0x050 ∨ 0x09F < s.indexAddress 0

/-- The instruction writes `pc` after the advance (R36). -/
def writesPc : Instr → Bool
  | .ret | .jp _ | .call _ | .jpV0 _ | .seImm _ _ | .sneImm _ _ | .seReg _ _ | .sneReg _ _ | .skp _ | .sknp _
  | .ldKey _ => true
  | _ => false

/-- `r` answers a state that differs from `s` only where the spec lets the instruction `i` write, or records a
fatal error; the part that is written is the constructor. -/
inductive Writes (s : State) : (i : Instr) → (r : Result) → Prop where
  | halt {i : Instr} (f : Fault) : Writes s i (.next (s.raise f))
  | registers {i : Instr} (V : Vector Byte 16) (named : ∀ r : Reg, ¬ writesReg i r → V[r] = s.V[r]) :
      Writes s i (.next { s with V := V })
  | target {i : Instr} (named : writesPc i = true) (pc : Word) : Writes s i (.next { s with pc := pc })
  | index {i : Instr} (named : writesI i = true) (I : Word) : Writes s i (.next { s with I := I })
  | delay {i : Instr} (named : writesDT i = true) (DT : Byte) : Writes s i (.next { s with DT := DT })
  | sound {i : Instr} (named : writesST i = true) (ST : Byte) : Writes s i (.next { s with ST := ST })
  | display {i : Instr} (named : writesDisplay i = true) (P : Display) : Writes s i (.next { s with P := P })
  | drawing (x y : Reg) (n : Fin 16) (P : Display) (c : Bool) :
      Writes s (.drw x y n) (.next (State.setFlag { s with P := P } c))
  | digits (x : Reg) (ok : s.Storable (bcdDigits (s.getV x))) :
      Writes s (.ldB x) (.next (s.stored (bcdDigits (s.getV x))))
  | dump (x : Reg) (ok : s.Storable (s.regBytes x)) : Writes s (.storeRegs x) (.next (s.stored (s.regBytes x)))
  | push (nnn : BitVec 12) (room : s.SP.val < 16) (pc : Word) :
      Writes s (.call nnn)
        (.next { s with S := s.S.set s.SP.val s.pc, SP := ⟨s.SP.val + 1, by omega⟩, pc := pc })
  | pop (used : 0 < s.SP.val) (pc : Word) :
      Writes s .ret (.next { s with SP := ⟨s.SP.val - 1, by omega⟩, pc := pc })

namespace Writes

theorem setV {i : Instr} {x : Reg} {v : Byte} (named : writesReg i x) : Writes s i (.next (s.setV x v)) :=
  registers _ fun _ h => s.setV_get_other v fun e => h (e ▸ named)

theorem setVFlag {i : Instr} {x : Reg} {v : Byte} {b : Bool} (named : writesReg i x) (flag : writesReg i VF) :
    Writes s i (.next (s.setVFlag x v b)) :=
  registers _ fun _ h => s.setVFlag_get_other v b (fun e => h (e ▸ named)) fun e => h (e ▸ flag)

theorem skipIf {i : Instr} {c : Bool} (named : writesPc i = true) : Writes s i (.next (s.skipIf c)) := by
  rw [State.skipIf_eq]
  exact target named _

/-- An access with a fatal error halts; one with a value does what follows it. -/
theorem orRaise {α : Type} {i : Instr} {r : Except Fault α} {k : α → State}
    (ok : ∀ v, r = .ok v → Writes s i (.next (k v))) : Writes s i (.next (orRaise s r k)) := by
  cases r with
  | ok v => exact ok v rfl
  | error f => exact halt f

end Writes

/-- A store of 1 to 16 bytes that answers a state stored them all (R14, R15). -/
theorem State.storeBytes_ok {t : State} {bytes : List Byte} (h0 : 0 < bytes.length) (h16 : bytes.length ≤ 16)
    (h : s.storeBytes (s.indexAddress 0) bytes = .ok t) : s.Storable bytes ∧ t = s.stored bytes := by
  rw [State.storeBytes_eq s _ _ h0 h16] at h
  split at h
  · cases h
  · split at h
    · cases h
    · cases h
      exact ⟨⟨by omega, by omega⟩, rfl⟩

/-- A register load writes no register past its last byte (R277). -/
theorem State.setRegs_get_above {bytes : List Byte} {r : Reg} (h : bytes.length ≤ r.val) :
    (s.setRegs bytes).V[r] = s.V[r] := by
  rw [State.setRegs_get, List.getD_eq_default _ _ h]

/-- A read that answers bytes answers as many as were asked for. -/
theorem State.loadBytes_length {a n : Nat} {bytes : List Byte} (h : s.loadBytes a n = .ok bytes) :
    bytes.length = n := by
  rw [State.loadBytes_eq] at h
  split at h
  · cases h
    exact Memory.readBytes_length _ _ _
  · cases h

/-! ## The call stack -/

/-- `CALL` with room on the stack pushes `pc` and jumps (R163). -/
theorem exec_call_room (nnn : BitVec 12) (room : s.SP.val < 16) :
    exec (.call nnn) s = .next { s with
      S := s.S.set s.SP.val s.pc, SP := ⟨s.SP.val + 1, by omega⟩, pc := addressOf nnn } := by
  simp only [exec, execCall, State.push, room, dite_true, orRaise_ok, State.jump]

/-- `CALL` with a full stack halts (R163, R300). -/
theorem exec_call_full (nnn : BitVec 12) (full : ¬ s.SP.val < 16) :
    exec (.call nnn) s = .next (s.raise (.stackOverflow s.instrAddress)) := by
  simp only [exec, execCall, State.push, full, dite_false, orRaise_error]

/-- `RET` with an entry in use jumps to it (R161). -/
theorem exec_ret_used (used : 0 < s.SP.val) :
    exec .ret s = .next { s with
      SP := ⟨s.SP.val - 1, by omega⟩, pc := s.S[s.SP.val - 1]'(by omega) } := by
  simp only [exec, execRet, State.pop, used, dite_true, orRaise_ok, State.jump]

/-- `RET` with an empty stack halts (R161, R301). -/
theorem exec_ret_empty (empty : ¬ 0 < s.SP.val) :
    exec .ret s = .next (s.raise (.stackUnderflow s.instrAddress)) := by
  simp only [exec, execRet, State.pop, empty, dite_false, orRaise_error]

theorem Writes.call (nnn : BitVec 12) : Writes s (.call nnn) (exec (.call nnn) s) := by
  by_cases room : s.SP.val < 16
  · rw [exec_call_room nnn room]
    exact .push nnn room _
  · rw [exec_call_full nnn room]
    exact .halt _

theorem Writes.ret : Writes s .ret (exec .ret s) := by
  by_cases used : 0 < s.SP.val
  · rw [exec_ret_used used]
    exact .pop used _
  · rw [exec_ret_empty used]
    exact .halt _

/-! ## Memory accesses and the key wait -/

theorem Writes.ldB (x : Reg) : Writes s (.ldB x) (exec (.ldB x) s) := by
  refine .orRaise fun t ht => ?_
  obtain ⟨ok, rfl⟩ := State.storeBytes_ok (by simp [bcdDigits]) (by simp [bcdDigits]) ht
  exact .digits x ok

theorem Writes.storeRegs (x : Reg) : Writes s (.storeRegs x) (exec (.storeRegs x) s) := by
  refine .orRaise fun t ht => ?_
  obtain ⟨ok, rfl⟩ := State.storeBytes_ok (by simp) (by simp) ht
  exact .dump x ok

theorem Writes.loadRegs (x : Reg) : Writes s (.loadRegs x) (exec (.loadRegs x) s) :=
  .orRaise fun _ hbytes => .registers _ fun r (hr : ¬ r ≤ x) =>
    s.setRegs_get_above ((s.loadBytes_length hbytes).trans_le (Nat.lt_of_not_le hr))

/-- `LD Vx, K` goes back to itself when no key is held, and else writes `V[x]` (R253). -/
theorem exec_ldKey_cases (x : Reg) (s : State) :
    ((∀ k : Fin 16, s.keys[k] = false) ∧ exec (.ldKey x) s = .next (s.jump (s.pc - 2))) ∨
    (∃ k : Fin 16, s.keys[k] = true ∧ exec (.ldKey x) s = .next (s.setV x (byteOf k.val))) := by
  cases hk : lowestHeld s.keys with
  | none => exact .inl ⟨lowestHeld_eq_none.mp hk, by simp only [exec, execLdKey, hk, State.instrAddress]⟩
  | some k => exact .inr ⟨k, (lowestHeld_eq_some hk).1, by simp only [exec, execLdKey, hk]⟩

theorem Writes.ldKey (x : Reg) : Writes s (.ldKey x) (exec (.ldKey x) s) := by
  obtain ⟨-, h⟩ | ⟨k, -, h⟩ := exec_ldKey_cases x s
  · exact h ▸ .target rfl _
  · exact h ▸ .setV rfl

/-- Every instruction writes only what the spec names for it. -/
theorem exec_writes (i : Instr) (s : State) : Writes s i (exec i s) := by
  cases i with
  | sys => exact .registers s.V fun _ _ => rfl
  | cls => exact .display rfl _
  | jp | jpV0 => exact .target rfl _
  | call nnn => exact .call nnn
  | ret => exact .ret
  | seImm | sneImm | seReg | sneReg => exact .skipIf rfl
  | skp | sknp => exact .orRaise fun _ _ => .skipIf rfl
  | ldImm | addImm | ldReg | orReg | andReg | xorReg | rnd | ldFromDT => exact .setV rfl
  | addReg | subReg | shr | subnReg | shl => exact .setVFlag (.inl rfl) (.inr rfl)
  | ldKey x => exact .ldKey x
  | loadRegs x => exact .loadRegs x
  | drw x y n => exact .orRaise fun _ _ => .drawing x y n _ _
  | ldI | addI | ldF => exact .index rfl _
  | ldDT => exact .delay rfl _
  | ldST => exact .sound rfl _
  | ldB x => exact .ldB x
  | storeRegs x => exact .storeRegs x

end Sys2Proof.Machine
end

section
/-! The parts of the state an instruction leaves alone (spec/10_state.md R32 to R44, R73), and what it makes of `pc`
(R36). -/

namespace Sys2Proof.Machine

variable {s t : State} {i : Instr}

theorem exec_answersNext (i : Instr) (s : State) : ∃ t, exec i s = .next t := by
  have effect := exec_writes i s
  generalize exec i s = r at effect
  cases effect <;> exact ⟨_, rfl⟩

/-- The effect of an instruction that answered `t`. -/
theorem exec_next_writes (h : exec i s = .next t) : Writes s i (.next t) := h ▸ exec_writes i s

theorem exec_register_unnamed (h : exec i s = .next t) (r : Reg) (unnamed : ¬ writesReg i r) : t.V[r] = s.V[r] := by
  cases exec_next_writes h with
  | registers V named => exact named r unnamed
  | drawing => exact State.setV_get_other _ _ unnamed
  | halt | target | index | delay | sound | display | digits | dump | push | pop => rfl

theorem exec_pc_unwritten (h : exec i s = .next t) (unwritten : writesPc i = false) : t.pc = s.pc := by
  cases exec_next_writes h with
  | target named => rw [named] at unwritten; cases unwritten
  | push | pop => cases unwritten
  | halt | registers | index | delay | sound | display | drawing | digits | dump => rfl

theorem exec_ldKey_noKey {x : Reg} (h : exec (.ldKey x) s = .next t) (none_held : ∀ k : Fin 16, s.keys[k] = false) :
    t.V = s.V := by
  obtain ⟨-, result⟩ | ⟨k, held, -⟩ := exec_ldKey_cases x s
  · cases result.symm.trans h
    rfl
  · rw [none_held k] at held; cases held

@[simp] theorem addressOf_toNat (nnn : BitVec 12) : (addressOf nnn).toNat = nnn.toNat :=
  BitVec.toNat_setWidth_of_le (by decide)

/-- `nnn + V[0]` is exact: it is at most 0x10FE (R38, R168). -/
theorem offsetTarget_toNat (nnn : BitVec 12) (v : Byte) :
    (BitVec.ofNat 16 (nnn.toNat + v.toNat)).toNat = nnn.toNat + v.toNat := by
  rw [BitVec.toNat_ofNat]; omega

theorem State.skipIf_pc_cases (s : State) (c : Bool) : (s.skipIf c).pc = s.pc ∨ (s.skipIf c).pc = s.pc + 2 := by
  cases c
  · exact .inl rfl
  · exact .inr rfl

theorem exec_ports (h : exec i s = .next t) :
    t.inputs = s.inputs ∧ t.cycleNo = s.cycleNo ∧ t.outcome = s.outcome := by
  cases exec_next_writes h <;> exact ⟨rfl, rfl, rfl⟩

theorem State.stored_read_outside {bytes : List Byte} {a n : Nat} (count : bytes.length = n)
    (ha : a < s.indexAddress 0 ∨ s.indexAddress 0 + n ≤ a) : (s.stored bytes).M.read a = s.M.read a :=
  Memory.read_writeBytes_outside _ _ _ _ (count ▸ ha)

end Sys2Proof.Machine

namespace Sys2Proof.Proofs

open Sys2Proof.Machine

/-- Settles O12: the effects of `Writes` name the registers of R32. -/
theorem onlyTableInstructionsWriteRegisters : Obligations.OnlyTableInstructionsWriteRegisters := by
  intro i s t h
  refine ⟨exec_register_unnamed h, ?_⟩
  rintro x rfl
  exact exec_ldKey_noKey h

/-- Settles O13: each effect of `Writes` changes the named part and keeps every other one. -/
theorem onlyNamedInstructionsWriteOtherState : Obligations.OnlyNamedInstructionsWriteOtherState := by
  intro i s t h
  cases exec_next_writes h with
  | halt | registers | target => simp
  | index named | delay named | sound named | display named => simp [named]
  | drawing => simp [writesDisplay]
  | push | pop => simp
  | digits x =>
    refine ⟨fun _ => rfl, fun _ => rfl, fun _ _ => rfl, fun _ => rfl, fun _ => rfl, fun _ => rfl, nofun, ?_, nofun,
      rfl, rfl, rfl⟩
    rintro _ a ⟨⟩ outside
    exact s.stored_read_outside rfl outside
  | dump x =>
    refine ⟨fun _ => rfl, fun _ => rfl, fun _ _ => rfl, fun _ => rfl, fun _ => rfl, fun _ => rfl, nofun, nofun, ?_,
      rfl, rfl, rfl⟩
    rintro _ a ⟨⟩ outside
    exact s.stored_read_outside (s.regBytes_length x) outside

/-- Settles O14, instruction by instruction; the last case is every instruction that `writesPc` does not name. -/
theorem pcChangesOnlyAsRuled : Obligations.PcChangesOnlyAsRuled := by
  intro i s t h
  cases i with
  | jp nnn => cases h; exact addressOf_toNat nnn
  | jpV0 nnn => cases h; exact offsetTarget_toNat nnn _
  | call nnn =>
    refine ⟨fun room => ?_, fun full => ?_⟩
    · cases (exec_call_room nnn room).symm.trans h
      exact addressOf_toNat nnn
    · cases (exec_call_full nnn (by omega)).symm.trans h
      rfl
  | ret =>
    by_cases used : 0 < s.SP.val
    · cases (exec_ret_used used).symm.trans h
      exact .inl ⟨used, rfl⟩
    · cases (exec_ret_empty used).symm.trans h
      exact .inr ⟨by omega, rfl⟩
  | ldKey x =>
    obtain ⟨-, result⟩ | ⟨k, -, result⟩ := exec_ldKey_cases x s
    · cases result.symm.trans h
      exact .inr rfl
    · cases result.symm.trans h
      exact .inl rfl
  | seImm | sneImm | seReg | sneReg => cases h; exact s.skipIf_pc_cases _
  | skp | sknp =>
    obtain ⟨k, -, rfl⟩ | ⟨f, -, rfl⟩ := orRaise_cases (Host.Outcome.next.inj h)
    · exact s.skipIf_pc_cases _
    · exact .inl rfl
  | _ => exact exec_pc_unwritten h rfl

end Sys2Proof.Proofs
end

section
/-! The inputs of a cycle (spec/10_state.md R61, R62): an instruction commutes with a change of the host's input list
that leaves alone what the instruction reads of it. -/

namespace Sys2Proof.Machine

variable {s t : State} {i : Instr} {inputs : List CycleInput}

/-- The state with another input list. -/
def State.withInputs (s : State) (inputs : List CycleInput) : State := { s with inputs := inputs }

theorem State.skipIf_withInputs (c : Bool) : (s.withInputs inputs).skipIf c = (s.skipIf c).withInputs inputs := by
  cases c <;> rfl

/-- An access that answers the same in both states, followed by what commutes with the change. -/
theorem orRaise_withInputs {α : Type} {r : Except Fault α} {k k' : α → State}
    (hk : ∀ v, k' v = (k v).withInputs inputs) :
    orRaise (s.withInputs inputs) r k' = (orRaise s r k).withInputs inputs := by
  cases r with
  | ok v => exact hk v
  | error f => rfl

theorem storeBytes_withInputs (a : Nat) (bytes : List Byte) :
    orRaise (s.withInputs inputs) ((s.withInputs inputs).storeBytes a bytes) id =
      (orRaise s (s.storeBytes a bytes) id).withInputs inputs := by
  unfold State.storeBytes
  cases checkRange true a bytes.length with
  | none => rfl
  | some f => rfl

/-- An instruction sees of the input list only the key vector and the random byte, and only if it reads them. -/
theorem exec_withInputs (sameKeys : readsKeys i = true → (s.withInputs inputs).keys = s.keys)
    (sameRandom : readsRandom i = true → (s.withInputs inputs).random = s.random) (h : exec i s = .next t) :
    exec i (s.withInputs inputs) = .next (t.withInputs inputs) := by
  cases i with
  | rnd x kk =>
    cases h
    unfold exec execRnd
    rw [sameRandom rfl]
    rfl
  | ldKey x =>
    unfold exec execLdKey at h ⊢
    rw [sameKeys rfl]
    cases h
    cases lowestHeld s.keys with
    | none => rfl
    | some k => rfl
  | skp | sknp =>
    cases h
    refine congrArg Host.Outcome.next (orRaise_withInputs fun k => ?_)
    rw [sameKeys rfl]
    exact State.skipIf_withInputs _
  | call nnn =>
    by_cases room : s.SP.val < 16
    · cases (exec_call_room nnn room).symm.trans h
      exact exec_call_room (s := s.withInputs inputs) nnn room
    · cases (exec_call_full nnn room).symm.trans h
      exact exec_call_full (s := s.withInputs inputs) nnn room
  | ret =>
    by_cases used : 0 < s.SP.val
    · cases (exec_ret_used used).symm.trans h
      exact exec_ret_used (s := s.withInputs inputs) used
    · cases (exec_ret_empty used).symm.trans h
      exact exec_ret_empty (s := s.withInputs inputs) used
  | drw | loadRegs =>
    cases h
    exact congrArg Host.Outcome.next (orRaise_withInputs fun _ => rfl)
  | ldB | storeRegs =>
    cases h
    exact congrArg Host.Outcome.next (storeBytes_withInputs _ _)
  | seImm | sneImm | seReg | sneReg =>
    cases h
    exact congrArg Host.Outcome.next (State.skipIf_withInputs _)
  | _ =>
    cases h
    rfl

end Sys2Proof.Machine

namespace Sys2Proof.Proofs

open Sys2Proof.Machine

/-- Settles O15: the two input lists hold the same key vector. -/
theorem randomByteIsReadOnlyByRnd : Obligations.RandomByteIsReadOnlyByRnd := by
  intro i s t K r r' rest unread h
  exact exec_withInputs (s := s.withInputs ({ K := K, r := r } :: rest)) (fun _ => rfl)
    (fun reads => by rw [unread] at reads; cases reads) h

/-- Settles O16: the two input lists hold the same random byte. -/
theorem keysAreReadOnlyByKeyInstructions : Obligations.KeysAreReadOnlyByKeyInstructions := by
  intro i s t K K' r rest unread h
  exact exec_withInputs (s := s.withInputs ({ K := K, r := r } :: rest))
    (fun reads => by rw [unread] at reads; cases reads) (fun _ => rfl) h

end Sys2Proof.Proofs
end

section
/-! The invariant of the machine (spec/10_state.md R38, R45, R50; spec/20_memory.md R74): it holds of every new machine,
and every step and every ROM load keep it. -/

namespace Sys2Proof.Machine

variable {s t : State} {i : Instr} {font : Vector Byte 80}

/-! ## Canonical memories -/

/-- Below the first cell of a canonical memory nothing is listed. -/
theorem Memory.read_tail_unlisted {k : Nat} {b : Byte} {rest : Memory} (h : Memory.wf ((k, b) :: rest) = true) :
    Memory.read rest k = unlistedByte k := by
  obtain ⟨-, -, above, -⟩ := Memory.wf_cons.mp h
  exact Memory.read_unlisted above

theorem Memory.read_below {k a : Nat} {b : Byte} {rest : Memory} (h : Memory.wf ((k, b) :: rest) = true)
    (below : a < k) : Memory.read ((k, b) :: rest) a = unlistedByte a := by
  obtain ⟨-, -, above, -⟩ := Memory.wf_cons.mp h
  exact Memory.read_unlisted fun c hc => (List.mem_cons.mp hc).elim (fun e => e ▸ below)
    fun hc => below.trans (above c hc)

theorem Memory.read_head (k : Nat) (b : Byte) (rest : Memory) : Memory.read ((k, b) :: rest) k = b := if_pos rfl

theorem Memory.read_cons_ne {k a : Nat} (b : Byte) (rest : Memory) (h : k ≠ a) :
    Memory.read ((k, b) :: rest) a = Memory.read rest a := if_neg h

/-- The first cell of a canonical memory is there because its byte differs from the unlisted one. -/
theorem Memory.read_head_ne_unlisted {k : Nat} {b : Byte} {rest : Memory} (h : Memory.wf ((k, b) :: rest) = true) :
    Memory.read ((k, b) :: rest) k ≠ unlistedByte k := by
  obtain ⟨-, listed, -, -⟩ := Memory.wf_cons.mp h
  rwa [Memory.read_head]

/-- Equal bytes, equal data: the first cells agree, and below a first cell nothing is listed. -/
theorem Memory.ext_read {m m' : Memory} (h : m.wf = true) (h' : m'.wf = true) (same : ∀ a, m.read a = m'.read a) :
    m = m' := by
  induction m generalizing m' with
  | nil =>
    cases m' with
    | nil => rfl
    | cons c rest' => exact absurd (same c.1).symm (Memory.read_head_ne_unlisted h')
  | cons c rest ih =>
    obtain ⟨k, b⟩ := c
    cases m' with
    | nil => exact absurd (same k) (Memory.read_head_ne_unlisted h)
    | cons c' rest' =>
      obtain ⟨k', b'⟩ := c'
      obtain below | rfl | above := lt_trichotomy k k'
      · exact absurd ((same k).trans (Memory.read_below h' below)) (Memory.read_head_ne_unlisted h)
      · have bytes : b = b' := by simpa only [Memory.read_head] using same k
        have tails : ∀ a, Memory.read rest a = Memory.read rest' a := fun a => by
          by_cases ha : k = a
          · rw [← ha, Memory.read_tail_unlisted h, Memory.read_tail_unlisted h']
          · simpa only [Memory.read_cons_ne _ _ ha] using same a
        obtain ⟨-, -, -, hrest⟩ := Memory.wf_cons.mp h
        obtain ⟨-, -, -, hrest'⟩ := Memory.wf_cons.mp h'
        rw [bytes, ih hrest hrest' tails]
      · exact absurd ((same k').symm.trans (Memory.read_below h above)) (Memory.read_head_ne_unlisted h')

/-! ## What keeps the invariant -/

namespace State.Inv

/-- The invariant speaks of memory, the stack, `pc` and the halt state only. -/
theorem of_kept (h : s.Inv font) (hM : t.M = s.M) (hS : t.S = s.S) (hSP : t.SP = s.SP) (hpc : t.pcBounded)
    (hhalt : t.haltRecorded) : t.Inv font where
  memory := hM ▸ h.memory
  font k := hM ▸ h.font k
  stack j hj := by rw [hS]; exact h.stack j (hSP ▸ hj)
  pc := hpc
  halt := hhalt

theorem raise (h : s.Inv font) (f : Fault) : (s.raise f).Inv font := h.of_kept rfl rfl rfl h.pc rfl

theorem report (h : s.Inv font) (o : Option CycleOutcome) : (s.report o).Inv font := h.of_kept rfl rfl rfl h.pc h.halt

theorem complete (h : s.Inv font) (diag : Option Word) : (s.complete diag).Inv font :=
  h.of_kept rfl rfl rfl h.pc h.halt

theorem endCycle (h : s.Inv font) (diag : Option Word) : (s.endCycle diag).Inv font := by
  unfold State.endCycle
  split
  · exact h.report _
  · exact h.complete diag

/-- A fetched instruction's advance does not wrap (R36, R132). -/
theorem advance (h : s.Inv font) (fetched : s.pc.toNat + 1 < 4096) : s.advance.Inv font :=
  h.of_kept rfl rfl rfl (by simp only [State.pcBounded, State.advance_pc]; bv_omega) h.halt

/-- Bytes written in memory and clear of the font keep the memory clauses. -/
theorem writeBytes (h : s.Inv font) {a : Nat} {bytes : List Byte} (fits : a + bytes.length ≤ 4096)
    (clear : a + bytes.length ≤ 0x050 ∨ 0x09F < a) : ({ s with M := s.M.writeBytes a bytes } : State).Inv font where
  memory := Memory.writeBytes_wf a bytes fits h.memory
  font k := by
    have : Config.fontBase + k.val < a ∨ a + bytes.length ≤ Config.fontBase + k.val := by
      simp only [Config.fontBase]; omega
    exact (Memory.read_writeBytes_outside _ _ _ _ this).trans (h.font k)
  stack := h.stack
  pc := h.pc
  halt := h.halt

end State.Inv

/-- Every way of R36 to set `pc` stays within the bound of R38, from the `pc` of a fetched instruction and a stack of
return addresses. -/
theorem exec_pcBounded (stack : s.stackBounded) (low : 2 ≤ s.pc.toNat) (high : s.pc.toNat ≤ 0x1000)
    (h : exec i s = .next t) : t.pcBounded := by
  have ruled := Proofs.pcChangesOnlyAsRuled i s t h
  unfold State.pcBounded
  cases i with
  | jp nnn =>
    have jumped : t.pc.toNat = nnn.toNat := ruled
    omega
  | jpV0 nnn =>
    have jumped : t.pc.toNat = nnn.toNat + s.V[0].toNat := ruled
    omega
  | call nnn =>
    obtain ⟨room, full⟩ := ruled
    by_cases hSP : s.SP.val < 16
    · have jumped := room hSP
      omega
    · rw [full (by omega)]
      omega
  | ret =>
    obtain ⟨used, popped⟩ | ⟨-, kept⟩ := ruled
    · rw [popped]
      exact (stack ⟨s.SP.val - 1, by omega⟩ (Nat.sub_one_lt_of_lt used)).trans (by decide)
    · rw [kept]
      omega
  | seImm | sneImm | seReg | sneReg | skp | sknp =>
    obtain kept | skipped := ruled
    · rw [kept]
      omega
    · rw [skipped]
      bv_omega
  | ldKey x =>
    obtain kept | back := ruled
    · rw [kept]
      omega
    · rw [back]
      bv_omega
  | _ =>
    have kept : t.pc = s.pc := ruled
    rw [kept]
    omega

/-- A fatal error sets both parts of the halt state, and no other effect sets either (R50, R311). -/
theorem exec_haltRecorded (recorded : s.haltRecorded) (h : exec i s = .next t) : t.haltRecorded := by
  have precise := exec_raisesPrecisely i s
  rw [h] at precise
  generalize raisedBy i s = o at precise
  cases precise with
  | raised f => rfl
  | kept hh hf => exact (hh.trans recorded).trans (congrArg Option.isSome hf.symm)

/-- A pushed entry is the return address `pc`; the entries below stay (R45, R163). -/
theorem State.stackBounded_push (stack : s.stackBounded) (high : s.pc.toNat ≤ 0x1000) (room : s.SP.val < 16)
    (pc : Word) : State.stackBounded
      { s with S := s.S.set s.SP.val s.pc, SP := ⟨s.SP.val + 1, by omega⟩, pc := pc } := by
  intro j (hj : j.val < s.SP.val + 1)
  by_cases top : s.SP.val = j.val
  · simpa [top] using high
  · simpa [top] using stack j (by omega)

/-- The execute stage of a fetched instruction keeps the invariant. -/
theorem exec_keepsInv (inv : s.Inv font) (low : 2 ≤ s.pc.toNat) (high : s.pc.toNat ≤ 0x1000)
    (h : exec i s = .next t) : t.Inv font := by
  have hpc := exec_pcBounded inv.stack low high h
  have hhalt := exec_haltRecorded inv.halt h
  cases exec_next_writes h with
  | push nnn room pc =>
    exact ⟨inv.memory, inv.font, State.stackBounded_push inv.stack high room pc, hpc, hhalt⟩
  | pop used pc =>
    have below : ∀ j : Fin 16, j.val < s.SP.val - 1 → s.S[j].toNat ≤ 0x1000 := fun j hj => inv.stack j (by omega)
    exact ⟨inv.memory, inv.font, below, hpc, hhalt⟩
  | digits x ok => exact inv.writeBytes ok.fits ok.clear
  | dump x ok => exact inv.writeBytes ok.fits ok.clear
  | halt | registers | target | index | delay | sound | display | drawing =>
    exact inv.of_kept rfl rfl rfl hpc hhalt

/-- Every kind of cycle keeps the invariant (R131 to R141). -/
theorem step_keepsInv (inv : s.Inv font) (h : step s = .next t) : t.Inv font := by
  obtain ⟨-, rfl⟩ | ⟨-, -, rfl⟩ | ⟨-, fetched, w, rfl⟩ | ⟨-, fetched, i, u, -, hu, rfl⟩ := step_cases h
  · exact inv.report _
  · exact (inv.raise _).report _
  · exact (inv.advance fetched).complete _
  · have low : 2 ≤ s.advance.pc.toNat := by rw [State.advance_pc]; bv_omega
    have high : s.advance.pc.toNat ≤ 0x1000 := by rw [State.advance_pc]; bv_omega
    exact (exec_keepsInv (inv.advance fetched) low high hu).endCycle none

/-- A ROM lies in memory above the font (R80). -/
theorem loadRom_keepsInv {readable : Bool} {src : List Byte} (inv : s.Inv font)
    (h : loadRom readable src s = .ok t) : t.Inv font := by
  unfold loadRom at h
  split at h
  · cases h
  · split at h
    · cases h
    · cases h
      simp only [Config.programOrigin, Config.memSize] at *
      exact inv.writeBytes (by omega) (by omega)

theorem State.create_inv (init : Config.Init) : (State.create init).Inv init.font where
  memory := createdMemory_wf init.font
  font k := by
    rw [State.create_M, createdMemory_read, dif_pos (by simp only [Config.fontBase]; omega)]
    simp
  stack _ hj := absurd hj (Nat.not_lt_zero _)
  pc := by simp [State.pcBounded]
  halt := rfl

end Sys2Proof.Machine

namespace Sys2Proof.Proofs

open Sys2Proof.Machine

/-- Settles O45: the first cells of the two memories agree, then the rest. -/
theorem canonicalMemoriesWithEqualBytesAreEqual : Obligations.CanonicalMemoriesWithEqualBytesAreEqual :=
  fun _ _ => Memory.ext_read

/-- Settles O49: the cycle's kinds are those of `step_cases`, and its execute stage keeps each clause. -/
theorem everyStepKeepsInvariant : Obligations.EveryStepKeepsInvariant :=
  fun _ _ _ => step_keepsInv

/-- Settles O51: the ROM lies in memory above the font. -/
theorem romLoadKeepsInvariant : Obligations.RomLoadKeepsInvariant :=
  fun _ _ _ _ _ => loadRom_keepsInv

/-- Settles O48: `State.reset` is the new machine with the default font. -/
theorem newMachineMeetsInvariant : Obligations.NewMachineMeetsInvariant :=
  ⟨State.create_inv, State.create_inv namedInit⟩

end Sys2Proof.Proofs
end

section
/-! The ports of a cycle (spec/10_state.md R60 to R63). -/

namespace Sys2Proof.Machine

variable {s t : State}

theorem step_answersNext (s : State) : ∃ t, step s = .next t := by
  cases running : s.halted with
  | true => exact ⟨_, step_halted running⟩
  | false =>
    by_cases hpc : s.pc.toNat + 1 < 4096
    · cases hd : decode (wordOfBytes (s.M.read s.pc.toNat) (s.M.read (s.pc.toNat + 1))) with
      | error e => exact ⟨_, step_unknown running hpc hd⟩
      | ok i =>
        obtain ⟨u, hu⟩ := exec_answersNext i s.advance
        exact ⟨u.endCycle none, by rw [step_decoded running hpc hd, hu, afterExec]⟩
    · exact ⟨_, step_fetchFault running (by omega)⟩

theorem State.endCycle_ports (s : State) (diag : Option Word) :
    (s.endCycle diag).inputs = s.inputs.tail ∧ (s.endCycle diag).cycleNo = s.cycleNo + 1 := by
  unfold State.endCycle
  split
  · exact ⟨rfl, rfl⟩
  · exact ⟨rfl, rfl⟩

/-- A cycle of any kind uses up its input and is counted (log entries 1, 2, 9). -/
theorem step_ports (h : step s = .next t) : t.inputs = s.inputs.tail ∧ t.cycleNo = s.cycleNo + 1 := by
  obtain ⟨-, rfl⟩ | ⟨-, -, rfl⟩ | ⟨-, -, w, rfl⟩ | ⟨-, -, i, u, -, hu, rfl⟩ := step_cases h
  · exact ⟨rfl, rfl⟩
  · exact ⟨rfl, rfl⟩
  · exact ⟨rfl, rfl⟩
  · obtain ⟨inputs, cycleNo, -⟩ := exec_ports hu
    obtain ⟨used, counted⟩ := u.endCycle_ports none
    rw [used, counted, inputs, cycleNo]
    exact ⟨rfl, rfl⟩

@[simp] theorem State.displayOutput_length (s : State) : s.displayOutput.length = 2048 := by
  simp [State.displayOutput, Config.displayW, Config.displayH]

theorem State.displayOutput_getElem (s : State) {k : Nat} (hk : k < 2048) :
    s.displayOutput[k]? = some (s.P.get (k % 64) (k / 64)) := by
  rw [State.displayOutput, List.getElem?_map, List.getElem?_range (by exact hk)]
  rfl

end Sys2Proof.Machine

namespace Sys2Proof.Proofs

open Sys2Proof.Machine

/-- Settles O53: the supplied input heads the list, and every cycle takes the head away. -/
theorem cyclePortSuppliesItsInputs : Obligations.CyclePortSuppliesItsInputs := by
  intro K r s
  obtain ⟨t, ht⟩ := step_answersNext { s with inputs := { K := K, r := r } :: s.inputs }
  obtain ⟨used, counted⟩ := step_ports ht
  exact ⟨State.keys_supplied .., State.random_supplied .., t, ht, ht, used, counted⟩

/-- Settles O32: `y * 64 + x` with `x < 64` has the remainder `x` and the quotient `y`. -/
theorem displayOutputIsRowMajor : Obligations.DisplayOutputIsRowMajor := by
  intro s
  refine ⟨s.displayOutput_length, fun x hx y hy => ?_⟩
  have column : (y * 64 + x) % 64 = x := by omega
  have row : (y * 64 + x) / 64 = y := by omega
  rw [s.displayOutput_getElem (by omega), column, row]

end Sys2Proof.Proofs
end

section
/-! The font table (spec/20_memory.md R71, R74): no write of an instruction reaches it, and no other stage of a cycle
writes memory. -/

namespace Sys2Proof.Machine

variable {s t : State} {i : Instr} {a : Nat}

@[simp] theorem State.endCycle_M (s : State) (diag : Option Word) : (s.endCycle diag).M = s.M := by
  unfold State.endCycle
  split
  · rfl
  · rfl

/-- A store that no check stops leaves the font alone (R14). -/
theorem State.Storable.read_font {bytes : List Byte} (ok : s.Storable bytes) (font : inFont a = true) :
    (s.stored bytes).M.read a = s.M.read a := by
  obtain ⟨low, high⟩ := inFont_iff.mp font
  have clear := ok.clear
  exact State.stored_read_outside rfl (by omega)

/-- Of the effects an instruction can have, only the two stores write memory. -/
theorem exec_keepsFont (h : exec i s = .next t) (font : inFont a = true) : t.M.read a = s.M.read a := by
  cases exec_next_writes h with
  | digits x ok => exact ok.read_font font
  | dump x ok => exact ok.read_font font
  | halt | registers | target | index | delay | sound | display | drawing | push | pop => rfl

/-- Every kind of cycle keeps the font (R131 to R141). -/
theorem step_keepsFont (h : step s = .next t) (font : inFont a = true) : t.M.read a = s.M.read a := by
  obtain ⟨-, rfl⟩ | ⟨-, -, rfl⟩ | ⟨-, -, w, rfl⟩ | ⟨-, -, i, u, -, hu, rfl⟩ := step_cases h
  · rfl
  · rfl
  · rfl
  · rw [State.endCycle_M]
    exact exec_keepsFont (s := s.advance) hu font

end Sys2Proof.Machine

namespace Sys2Proof.Proofs

open Sys2Proof.Machine

/-- Settles O46: the execute stage is the only stage that writes memory, and its stores are checked. -/
theorem noStepChangesTheFont : Obligations.NoStepChangesTheFont :=
  fun _ _ h _ => step_keepsFont h

end Sys2Proof.Proofs
end

section
/-! Bytes put into memory (spec/20_memory.md R80 to R83, R92, R340): stored by `LD [I], Vx`, loaded as a ROM, or there
from creation; and the glyphs of the font (R75). -/

namespace Sys2Proof.Machine

variable {s t : State}

/-! ## Stores -/

/-- A store whose range names no fatal error stores every byte (R14, R15). -/
theorem State.storeBytes_stored {bytes : List Byte} (h0 : 0 < bytes.length) (h16 : bytes.length ≤ 16)
    (faultless : writeFault (s.indexAddress 0) bytes.length = none) :
    s.storeBytes (s.indexAddress 0) bytes = .ok (s.stored bytes) := by
  rw [State.storeBytes_eq s _ _ h0 h16]
  unfold writeFault at faultless
  split at faultless
  · cases faultless
  · next fits =>
    split at faultless
    · cases faultless
    · next clear => rw [if_neg fits, if_neg clear]; rfl

/-- `LD [I], Vx` with no fatal error stores `V[0]` to `V[x]` (R276). -/
theorem exec_storeRegs_stored {x : Reg} (faultless : raisedBy (.storeRegs x) s = none) :
    s.Storable (s.regBytes x) ∧ exec (.storeRegs x) s = .next (s.stored (s.regBytes x)) := by
  have count := s.regBytes_length x
  have stored : s.storeBytes (s.indexAddress 0) (s.regBytes x) = .ok (s.stored (s.regBytes x)) :=
    State.storeBytes_stored (by omega) (by omega) (by rw [count]; exact faultless)
  refine ⟨(State.storeBytes_ok (by omega) (by omega) stored).1, ?_⟩
  rw [exec, execStoreRegs, stored, orRaise_ok, id]

/-- Byte `j` of the registers stored at `I`. -/
theorem State.Storable.read_regBytes {x : Reg} (ok : s.Storable (s.regBytes x)) (canonical : s.M.wf = true) {j : Nat}
    (hj : j ≤ x.val) : (s.stored (s.regBytes x)).M.read (s.indexAddress j) = s.V[j]'(by omega) := by
  have inside : j < (s.regBytes x).length := by rw [State.regBytes_length]; omega
  exact (Memory.read_writeBytes_inside _ _ ok.fits canonical j inside).trans (s.regBytes_getElem x j inside)

/-! ## The ROM load -/

/-- A ROM of at most 3584 bytes is written at 0x200 (R80). -/
theorem loadRom_fits {src : List Byte} (fits : src.length ≤ 3584) :
    loadRom true src s = .ok { s with M := s.M.writeBytes 0x200 src } := by
  have : ¬ Config.programOrigin + src.length > Config.memSize := by
    simp only [Config.programOrigin, Config.memSize]; omega
  rw [loadRom, if_neg nofun, if_neg this]

/-- A longer ROM is refused (R80, R308). -/
theorem loadRom_tooLarge {src : List Byte} (large : 3584 < src.length) :
    loadRom true src s = .error (.tooLarge src.length) := by
  have : Config.programOrigin + src.length > Config.memSize := by
    simp only [Config.programOrigin, Config.memSize]; omega
  rw [loadRom, if_neg nofun, if_pos this]

/-! ## Glyphs -/

/-- The address of a digit's glyph fits `I` (R75). -/
theorem glyphAddress_toNat {d : Byte} (digit : d.toNat < 16) :
    (BitVec.ofNat 16 (glyphAddress d)).toNat = 0x050 + 5 * d.toNat := by
  simp only [glyphAddress, Config.fontBase, BitVec.toNat_ofNat]
  omega

/-- Byte `k` of the font, by its address. -/
theorem State.holdsFont.read {font : Vector Byte 80} (holds : s.holdsFont font) {k : Nat} (hk : k < 80) :
    s.M.read (0x050 + k) = font[k] :=
  holds ⟨k, hk⟩

end Sys2Proof.Machine

namespace Sys2Proof.Proofs

open Sys2Proof.Machine

/-- Settles O44: the two bytes at `pc` are the stored `V[j]` and `V[j + 1]`. -/
theorem storedBytesAreFetched : Obligations.StoredBytesAreFetched := by
  intro x s t j hj canonical hpc faultless h
  obtain ⟨ok, stored⟩ := exec_storeRegs_stored faultless
  cases stored.symm.trans h
  have following : s.pc.toNat + 1 = s.indexAddress (j + 1) := by rw [hpc, State.indexAddress, State.indexAddress]; omega
  have inMemory : s.pc.toNat + 1 < 4096 := by
    have fits := ok.fits
    rw [State.regBytes_length] at fits
    rw [following]
    simp only [State.indexAddress] at fits ⊢
    omega
  have high := ok.read_regBytes canonical (j := j) (by omega)
  have low := ok.read_regBytes canonical (j := j + 1) hj
  rw [← hpc] at high
  rw [← following] at low
  refine ⟨_, State.fetch_inside (s := s.stored (s.regBytes x)) inMemory, ?_⟩
  rw [wordOfBytes_toNat]
  exact congrArg₂ (fun a b : Byte => a.toNat * 256 + b.toNat) high low

/-- Settles O50: a ROM that fits is a write of its bytes at 0x200, which ends within memory. -/
theorem romLoadCopiesOrFailsUnchanged : Obligations.RomLoadCopiesOrFailsUnchanged := by
  intro src s canonical
  refine ⟨rfl, loadRom_tooLarge, fun fits => ⟨_, loadRom_fits fits, ?_, ?_, rfl⟩⟩
  · exact Memory.read_writeBytes_inside 0x200 src (by omega) canonical
  · exact fun a => Memory.read_writeBytes_outside s.M 0x200 a src

/-- Settles O54: byte `j` of the glyph of `d` is byte `5 d + j` of the font. -/
theorem glyphAddressNamesTheGlyphOfTheFont : Obligations.GlyphAddressNamesTheGlyphOfTheFont := by
  intro font x s holds digit
  refine ⟨_, rfl, rfl, fun j => ?_⟩
  rw [State.indexAddress, s.getV_eq, glyphAddress_toNat digit, Nat.add_assoc]
  exact holds.read (by omega)

/-- Settles O47: creation sets every field, and `createdMemory` is read byte by byte. -/
theorem creationStateAsRuled : Obligations.CreationStateAsRuled := by
  refine ⟨fun init => ⟨fun k => ?_, fun a outside => ?_, rfl, rfl, rfl, fun x _ y _ => Display.get_clear x y, rfl, rfl,
    rfl, rfl, rfl, rfl⟩, namedInit, rfl, rfl⟩
  · exact (State.create_inv init).font.read k.isLt
  · rw [State.create_M, createdMemory_read, dif_neg (by omega)]

end Sys2Proof.Proofs
end

section
/-! A cycle around its instruction (spec/40_cycle.md R133 to R141): what the decoder can give, and the end of the cycle
written out. -/

namespace Sys2Proof

variable {w : Word} {i : Instr}

/-! ## The decoder gives well-formed instructions -/

theorem decodeGroup0_wellFormed (w : Word) : (decodeGroup0 w).wellFormed = true := by
  unfold decodeGroup0
  split
  · rfl
  · next notCls =>
    split
    · rfl
    · next notRet => exact wellFormed_sys.mpr ⟨notCls, notRet⟩

theorem decodeGroup8_wellFormed (h : decodeGroup8 w = .ok i) : i.wellFormed = true := by
  unfold decodeGroup8 at h
  split at h <;> cases h <;> rfl

theorem decodeGroupE_wellFormed (h : decodeGroupE w = .ok i) : i.wellFormed = true := by
  unfold decodeGroupE at h
  split_ifs at h <;> cases h <;> rfl

theorem decodeGroupF_wellFormed (h : decodeGroupF w = .ok i) : i.wellFormed = true := by
  unfold decodeGroupF at h
  split_ifs at h <;> cases h <;> rfl

/-- Only group 0 gives a `SYS`, and it gives none at the words of `CLS` and `RET` (R105 row 1). -/
theorem decode_wellFormed (h : decode w = .ok i) : i.wellFormed = true := by
  unfold decode at h
  split at h
  -- groups 0, 8, E and F dispatch a second time, groups 5 and 9 ask for `n = 0` (R103, R106)
  case h_1 => cases h; exact decodeGroup0_wellFormed w
  case h_9 => exact decodeGroup8_wellFormed h
  case h_15 => exact decodeGroupE_wellFormed h
  case h_16 => exact decodeGroupF_wellFormed h
  case h_6 | h_10 => split_ifs at h; cases h; rfl
  all_goals cases h <;> rfl

end Sys2Proof

namespace Sys2Proof.Machine

theorem countDown_eq (v : Byte) : countDown v = if v = 0 then 0 else v - 1 := by
  by_cases h : v = 0
  · subst h; rfl
  · have : v.toNat > 0 := by bv_omega
    rw [countDown, if_pos this, if_neg h]

/-- The end of a cycle that is not halted, field by field (R137, R138). -/
theorem State.complete_eq (s : State) (diag : Option Word) :
    s.complete diag =
      { s with
        DT := if s.DT = 0 then 0 else s.DT - 1
        ST := if s.ST = 0 then 0 else s.ST - 1
        inputs := s.inputs.tail
        cycleNo := s.cycleNo + 1
        outcome := some (.ok (decide (s.ST = 1)) diag) } := by
  rw [← countDown_eq, ← countDown_eq]
  rfl

end Sys2Proof.Machine

namespace Sys2Proof.Proofs

open Sys2Proof.Machine

/-- Settles O5: the step is the decoded instruction on the advanced state, then the end of the cycle. -/
theorem stepRunsDecodedInstruction : Obligations.StepRunsDecodedInstruction := by
  intro s i running hpc decoded
  obtain ⟨u, executed⟩ := exec_answersNext i s.advance
  refine ⟨decode_wellFormed decoded, u, executed, ?_⟩
  rw [step_decoded running (by omega) decoded, executed, afterExec, State.endCycle, u.complete_eq]
  rfl

end Sys2Proof.Proofs
end

section
/-! The decoder, the encoder and the opcode table agree (spec/30_encoding.md R100 to R108): the decoder reads back every
word the encoder builds, the encoder rebuilds every word the decoder reads, and a word that matches a row of R105 is
the word of a well-formed instruction of that row. -/

namespace Sys2Proof

variable {w : Word} {i : Instr}

/-! ## A word of a given high nibble -/

theorem wordNNN_nnnField {op : Nat} (hop : opField w = op) : wordNNN op (nnnField w) = w := by
  subst hop
  exact (word_eq_wordNNN w).symm

theorem wordXKK_xField {op : Nat} {kk : Byte} (hop : opField w = op) (hkk : kkField w = kk) :
    wordXKK op (xField w) kk = w := by
  subst hop hkk
  exact (word_eq_wordXKK w).symm

theorem wordXYN_xField_yField {op : Nat} {n : Fin 16} (hop : opField w = op) (hn : nField w = n) :
    wordXYN op (xField w) (yField w) n = w := by
  subst hop hn
  exact (word_eq_wordXYN w).symm

/-! ## Encoding what was decoded -/

theorem encode_decodeGroup0 (hop : opField w = 0) : encode (decodeGroup0 w) = w := by
  have fields : wordNNN 0 (nnnField w) = w := wordNNN_nnnField hop
  unfold decodeGroup0
  split_ifs with cls ret
  · rw [cls] at fields; exact fields
  · rw [ret] at fields; exact fields
  · exact fields

theorem encode_of_decodeGroup8 (hop : opField w = 8) (h : decodeGroup8 w = .ok i) : encode i = w := by
  unfold decodeGroup8 at h
  split at h <;> cases h <;> exact wordXYN_xField_yField hop (Fin.ext ‹_›)

theorem encode_of_decodeGroupE (hop : opField w = 14) (h : decodeGroupE w = .ok i) : encode i = w := by
  unfold decodeGroupE at h
  split_ifs at h <;> cases h <;> exact wordXKK_xField hop ‹_›

theorem encode_of_decodeGroupF (hop : opField w = 15) (h : decodeGroupF w = .ok i) : encode i = w := by
  unfold decodeGroupF at h
  split_ifs at h <;> cases h <;> exact wordXKK_xField hop ‹_›

/-- No bit of a recognized word is dropped (R105). -/
theorem encode_of_decode (h : decode w = .ok i) : encode i = w := by
  unfold decode at h
  split at h
  case h_1 hop => cases h; exact encode_decodeGroup0 hop
  case h_9 hop => exact encode_of_decodeGroup8 hop h
  case h_15 hop => exact encode_of_decodeGroupE hop h
  case h_16 hop => exact encode_of_decodeGroupF hop h
  -- groups 5 and 9, whose low nibble is 0 (R106)
  case h_6 hop | h_10 hop =>
    split_ifs at h with hn
    cases h
    exact wordXYN_xField_yField hop hn
  -- `DRW`
  case h_14 hop => cases h; exact wordXYN_xField_yField hop rfl
  -- the rows of shape `op nnn`
  case h_2 hop | h_3 hop | h_11 hop | h_12 hop => cases h; exact wordNNN_nnnField hop
  -- the rows of shape `op x kk`
  case h_4 hop | h_5 hop | h_7 hop | h_8 hop | h_13 hop => cases h; exact wordXKK_xField hop rfl
  case h_17 => cases h

/-! ## Decoding what was encoded -/

/-- The decoder reads a well-formed instruction from its word (R105). -/
theorem decode_encode (hw : i.wellFormed = true) : decode (encode i) = .ok i := by
  cases i with
  | sys nnn =>
    obtain ⟨notCls, notRet⟩ := wellFormed_sys.mp hw
    have field : nnnField (wordNNN 0 nnn) = nnn := nnnField_wordNNN (by decide) nnn
    have group : decodeGroup0 (wordNNN 0 nnn) = .sys nnn := by
      rw [decodeGroup0_sys (by rwa [field]) (by rwa [field]), field]
    simp [encode, decode, opField_wordNNN, group]
  | cls | ret => decide
  | jp | call | ldI | jpV0 => simp [encode, decode, opField_wordNNN, nnnField_wordNNN]
  | seImm | sneImm | ldImm | addImm | rnd => simp [encode, decode, opField_wordXKK, xField_wordXKK, kkField_wordXKK]
  | seReg | sneReg | drw =>
    simp [encode, decode, opField_wordXYN, xField_wordXYN, yField_wordXYN, nField_wordXYN]
  | ldReg | orReg | andReg | xorReg | addReg | subReg | shr | subnReg | shl =>
    simp [encode, decode, decodeGroup8, opField_wordXYN, xField_wordXYN, yField_wordXYN, nField_wordXYN]
  | skp | sknp => simp [encode, decode, decodeGroupE, opField_wordXKK, xField_wordXKK, kkField_wordXKK]
  | ldFromDT | ldKey | ldDT | ldST | addI | ldF | ldB | storeRegs | loadRegs =>
    simp [encode, decode, decodeGroupF, opField_wordXKK, xField_wordXKK, kkField_wordXKK]

/-- The decoder takes exactly the two bytes of the instruction (R100). -/
theorem decodeBytes_encodeBytes_append (hw : i.wellFormed = true) (rest : List Byte) :
    decodeBytes (encodeBytes i ++ rest) = .ok (i, rest) := by
  simp [encodeBytes, decodeBytes, decode_encode hw]

/-! ## Unknown words -/

/-- The only error of the decoder over words is `unknown` (R107, R108). -/
theorem error_of_decode {e : DecodeError} (h : decode w = .error e) : e = .unknown w := by
  unfold decode at h
  split at h
  case h_6 | h_10 => split_ifs at h; cases h; rfl
  case h_9 => unfold decodeGroup8 at h; split at h <;> cases h; rfl
  case h_15 => unfold decodeGroupE at h; split_ifs at h; cases h; rfl
  case h_16 => unfold decodeGroupF at h; split_ifs at h; cases h; rfl
  case h_17 => cases h; rfl
  all_goals cases h

/-! ## The rows of the opcode table -/

theorem Instr.row_mem_opcodeTable (i : Instr) : i.row ∈ opcodeTable := by
  cases i <;> (simp only [Instr.row]; decide)

/-- The word of a well-formed instruction matches its row, by the shape of the word (R105). -/
theorem row_matches_encode (hw : i.wellFormed = true) : i.row.matches (encode i) = true := by
  cases i with
  | sys nnn => exact Laws.EncodeRow.sys nnn hw
  | cls | ret => decide
  | jp nnn | call nnn | ldI nnn | jpV0 nnn => exact Laws.wordNNN_matches (by decide) nnn
  | seImm x kk | sneImm x kk | ldImm x kk | addImm x kk | rnd x kk => exact Laws.wordXKK_matches (by decide) x kk
  | drw x y n => exact Laws.wordXYN_matches (by decide) x y n
  | seReg x y | sneReg x y | ldReg x y | orReg x y | andReg x y | xorReg x y | addReg x y | subReg x y | shr x y
  | subnReg x y | shl x y => exact Laws.wordXYN_matches_low (by decide) x y _
  | skp x | sknp x | ldFromDT x | ldKey x | ldDT x | ldST x | addI x | ldF x | ldB x | storeRegs x | loadRegs x =>
    exact Laws.wordXKK_matches_low (by decide) x _

/-! What a matching word has in common with the value of the row, mask by mask. -/

theorem opField_of_matches {v : Word} (h : OpcodeRow.matches { value := v, mask := 0xF000 } w = true) :
    opField w = opField v := by
  rw [matches_F000] at h
  unfold opField
  omega

theorem opField_nField_of_matches {v : Word} (h : OpcodeRow.matches { value := v, mask := 0xF00F } w = true) :
    opField w = opField v ∧ nField w = nField v := by
  rw [matches_F00F] at h
  exact ⟨by unfold opField; omega, Fin.ext (by simp only [nField]; omega)⟩

theorem opField_kkField_of_matches {v : Word} (h : OpcodeRow.matches { value := v, mask := 0xF0FF } w = true) :
    opField w = opField v ∧ kkField w = kkField v := by
  rw [matches_F0FF] at h
  have low : w.toNat % 256 = v.toNat % 256 := by omega
  exact ⟨by unfold opField; omega, by rw [kkField, low, kkField]⟩

/-- Row 1 of R105: the high nibble 0 and neither of the two fixed words. -/
theorem decode_of_matches_sys {nnn : BitVec 12} (h : (Instr.sys nnn).row.matches w = true) :
    decode w = .ok (.sys (nnnField w)) := by
  simp only [Instr.row, OpcodeRow.matches, Bool.and_eq_true, Bool.not_eq_true', List.contains_cons, List.contains_nil,
    Bool.or_false, Bool.or_eq_false_iff, beq_eq_false_iff_ne] at h
  obtain ⟨masked, notCls, notRet⟩ := h
  have hop : opField w = 0 := opField_of_matches (v := 0) (by simpa [OpcodeRow.matches] using masked)
  have fields : wordNNN 0 (nnnField w) = w := wordNNN_nnnField hop
  have group : decodeGroup0 w = .sys (nnnField w) := decodeGroup0_sys
    (fun cls => notCls (by rw [← fields, cls]; rfl)) (fun ret => notRet (by rw [← fields, ret]; rfl))
  simp [decode, hop, group]

/-- The decoder reads from a word that matches a row an instruction of that row (R103, R106). -/
theorem decode_row_of_matches (h : i.row.matches w = true) : (decode w).map Instr.row = .ok i.row := by
  cases i with
  | sys nnn => rw [decode_of_matches_sys h]; rfl
  | cls | ret => rw [matches_FFFF.mp h]; rfl
  | jp | call | seImm | sneImm | ldImm | addImm | ldI | jpV0 | rnd | drw => rw [decode, opField_of_matches h]; rfl
  | seReg | sneReg =>
    obtain ⟨hop, hn⟩ := opField_nField_of_matches h
    rw [decode, hop, hn]; rfl
  | ldReg | orReg | andReg | xorReg | addReg | subReg | shr | subnReg | shl =>
    obtain ⟨hop, hn⟩ := opField_nField_of_matches h
    rw [decode, hop, decodeGroup8, hn]; rfl
  | skp | sknp =>
    obtain ⟨hop, hkk⟩ := opField_kkField_of_matches h
    rw [decode, hop, decodeGroupE, hkk]; rfl
  | ldFromDT | ldKey | ldDT | ldST | addI | ldF | ldB | storeRegs | loadRegs =>
    obtain ⟨hop, hkk⟩ := opField_kkField_of_matches h
    rw [decode, hop, decodeGroupF, hkk]; rfl

theorem row_matches_of_decode (h : decode w = .ok i) : i.row.matches w = true := by
  have matched := row_matches_encode (decode_wellFormed h)
  rwa [encode_of_decode h] at matched

/-- A word that matches a row of the table is decoded, to an instruction of that row and of no other (R105, R107). -/
theorem exists_decode_of_matches {r : OpcodeRow} (hr : r ∈ opcodeTable) (h : r.matches w = true) :
    ∃ i, decode w = .ok i ∧ i.row = r := by
  obtain ⟨sample, -, rfl⟩ := List.mem_map.mp hr
  have row := decode_row_of_matches h
  cases decoded : decode w with
  | ok i => rw [decoded] at row; exact ⟨i, rfl, Except.ok.inj row⟩
  | error e => rw [decoded] at row; cases row

end Sys2Proof

namespace Sys2Proof.Proofs

open Sys2Proof.Machine

/-- Settles O1: the fields of the encoded word are the operands, and its bytes make up the word. -/
theorem decodeOfEncodeIsIdentity : Obligations.DecodeOfEncodeIsIdentity :=
  fun _ rest hw => ⟨decode_encode hw, decodeBytes_encodeBytes_append hw rest⟩

/-- Settles O2: in every branch of the decoder the fields it reads and those it tests make up the word. -/
theorem encodeOfDecodeIsIdentity : Obligations.EncodeOfDecodeIsIdentity :=
  fun _ _ decoded => ⟨decode_wellFormed decoded, encode_of_decode decoded⟩

/-- Settles O3: a word that matches a row is decoded to an instruction of that row, so two rows it matches are the
row of one instruction. -/
theorem decodeAgreesWithOpcodeTable : Obligations.DecodeAgreesWithOpcodeTable := by
  intro w
  refine ⟨fun i decoded => ⟨i.row_mem_opcodeTable, row_matches_of_decode decoded⟩, ⟨?_, ?_⟩,
    fun e => error_of_decode, ?_⟩
  · rintro ⟨i, decoded⟩
    exact ⟨i.row, i.row_mem_opcodeTable, row_matches_of_decode decoded⟩
  · rintro ⟨r, hr, matched⟩
    obtain ⟨i, decoded, -⟩ := exists_decode_of_matches hr matched
    exact ⟨i, decoded⟩
  · intro r hr r' hr' matched matched'
    obtain ⟨i, decoded, rfl⟩ := exists_decode_of_matches hr matched
    obtain ⟨i', decoded', rfl⟩ := exists_decode_of_matches hr' matched'
    rw [Except.ok.inj (decoded.symm.trans decoded')]

/-- Settles O4: each word is a literal, so the decoder is run on it. -/
theorem specWordsDecodeAsTheirInstructions : Obligations.SpecWordsDecodeAsTheirInstructions := by
  unfold Obligations.SpecWordsDecodeAsTheirInstructions
  decide

/-- Settles O6: an Unknown cycle is the advance and the end of a completed cycle (R108). -/
theorem unknownWordOnlyAdvancesAndTicks : Obligations.UnknownWordOnlyAdvancesAndTicks := by
  intro s e running hpc unknown
  rw [step_unknown running (by omega) unknown, State.complete_eq]
  rfl

end Sys2Proof.Proofs
end

section
/-! How a cycle ends (spec/40_cycle.md R131 to R140): halted from the start, at the fetch or in the execute stage; or
completed, where the sound timer counts down and beeps (R320, R321). -/

namespace Sys2Proof.Machine

variable {s t u : State} {i : Instr}

/-! ## Halted cycles -/

theorem State.endHalted_recorded {f : Fault} (recorded : s.fault = some f) :
    s.endHalted = s.report (some (.fatal f)) := by
  rw [State.endHalted, recorded, Option.map_some]

/-- A halted machine's cycles only move the model's own fields on (R131). -/
theorem runCycles_halted {f : Fault} (halted : s.halted = true) (recorded : s.fault = some f) (k : Nat) :
    runCycles (k + 1) s = .next
      { s with
        inputs := s.inputs.drop (k + 1)
        cycleNo := s.cycleNo + (k + 1)
        outcome := some (.fatal f) } := by
  induction k generalizing s with
  | zero =>
    rw [runCycles_succ (step_halted halted), runCycles, State.endHalted_recorded recorded, List.drop_one]
    rfl
  | succ k ih =>
    have rest := ih (s := s.endHalted) halted recorded
    have counted : s.cycleNo + 1 + (k + 1) = s.cycleNo + (k + 1 + 1) := by omega
    rw [State.endHalted_inputs, State.endHalted_cycleNo, List.drop_tail, counted] at rest
    exact (runCycles_succ (step_halted halted) (k + 1)).trans rest

/-- A fatal error ends its cycle with nothing but the error recorded (R140, R311). -/
theorem State.endHalted_raise (s : State) (f : Fault) :
    (s.raise f).endHalted =
      { s with
        halted := true
        fault := some f
        inputs := s.inputs.tail
        cycleNo := s.cycleNo + 1
        outcome := some (.fatal f) } := rfl

/-- An instruction's fatal error leaves the advance of its cycle and nothing else (R133, R140). -/
theorem step_raised {f : Fault} (running : s.halted = false) (hpc : s.pc.toNat ≤ 4094)
    (decoded : decode s.wordAtPc = .ok i) (raised : raisedBy i s.advance = some f) :
    step s = .next (s.advance.raise f).endHalted := by
  have executed : exec i s.advance = .next (s.advance.raise f) :=
    (exec_raisesPrecisely i s.advance).raised_or_kept.1 f raised
  rw [step_decoded running (by omega) decoded, executed, afterExec, State.endCycle, if_pos (State.raise_halted _ f)]

/-! ## Completed cycles -/

/-- An instruction that raises nothing is followed by the tick and the outcome (R137, R138). -/
theorem step_completed (running : s.halted = false) (hpc : s.pc.toNat ≤ 4094) (decoded : decode s.wordAtPc = .ok i)
    (executed : exec i s.advance = .next u) (unraised : u.halted = false) : step s = .next (u.complete none) := by
  rw [step_decoded running (by omega) decoded, executed, afterExec, State.endCycle, if_neg (by simp [unraised])]

/-- With no key held `LD Vx, K` takes the advance of its own cycle back (R253). -/
theorem exec_ldKey_advance {x : Reg} (none_held : ∀ k : Fin 16, s.keys[k] = false) :
    exec (.ldKey x) s.advance = .next s := by
  obtain ⟨-, rewound⟩ | ⟨k, held, -⟩ := exec_ldKey_cases x s.advance
  · rw [rewound, State.advance_pc, BitVec.add_sub_cancel]
    rfl
  · rw [State.advance_keys, none_held k] at held
    cases held

/-- The beep instant by the timer's value (R321). -/
theorem State.beep_eq (s : State) : s.beep = decide (s.ST.toNat = 1) :=
  decide_eq_decide.mpr BitVec.toNat_inj.symm

/-! ## The sound timer -/

theorem exec_ST_unwritten (h : exec i s = .next t) (unwritten : writesST i = false) : t.ST = s.ST := by
  obtain ⟨-, -, -, -, kept, -⟩ := Proofs.onlyNamedInstructionsWriteOtherState i s t h
  exact kept unwritten

/-- The cycle starts running and its instruction, if any, is not `LD ST, Vx`. -/
def State.leavesSoundTimer (s : State) : Prop := s.halted = false ∧ ∀ x, decode s.wordAtPc ≠ .ok (.ldST x)

/-- A completed cycle that does not write the sound timer counts it down, and beeps at 1 (R137, R320, R321). -/
theorem step_soundTimer (left : s.leavesSoundTimer) (h : step s = .next t) (running : t.halted = false) :
    t.ST = countDown s.ST ∧ ∃ diag, t.outcome = some (.ok s.beep diag) := by
  obtain ⟨started, notLdST⟩ := left
  obtain ⟨halted, -⟩ | ⟨-, -, rfl⟩ | ⟨-, -, w, rfl⟩ | ⟨-, -, i, u, decoded, executed, rfl⟩ := step_cases h
  · rw [started] at halted; cases halted
  · cases running
  · exact ⟨rfl, _, rfl⟩
  · have unwritten : writesST i = false := by
      cases i with
      | ldST x => exact absurd decoded (notLdST x)
      | _ => rfl
    have kept : u.ST = s.ST := exec_ST_unwritten (s := s.advance) executed unwritten
    unfold State.endCycle at running ⊢
    split at running
    · next halted => rw [State.endHalted_halted, halted] at running; cases running
    · next unraised =>
      rw [if_neg unraised, State.complete_ST, State.complete_outcome, State.beep_eq, State.beep_eq, kept]
      exact ⟨rfl, _, rfl⟩

/-- Over `k + 1` completed cycles that do not write it, the sound timer counts down `k + 1` times; the last cycle beeps
when `k` counts left it at 1 (R320, R321). -/
theorem runCycles_soundTimer {k : Nat} (h : runCycles (k + 1) s = .next t) (running : t.halted = false)
    (left : ∀ j ≤ k, ∀ u, runCycles j s = .next u → u.leavesSoundTimer) :
    t.ST.toNat = s.ST.toNat - (k + 1) ∧ ∃ diag, t.outcome = some (.ok (decide (s.ST.toNat = k + 1)) diag) := by
  induction k generalizing s with
  | zero =>
    obtain ⟨u, first⟩ := step_answersNext s
    rw [runCycles_succ first] at h
    cases h
    obtain ⟨counted, diag, reported⟩ := step_soundTimer (left 0 le_rfl s rfl) first running
    rw [counted, countDown_toNat, reported, State.beep_eq]
    exact ⟨rfl, diag, rfl⟩
  | succ k ih =>
    obtain ⟨u, first⟩ := step_answersNext s
    have later : ∀ j ≤ k, ∀ v, runCycles j u = .next v → v.leavesSoundTimer := fun j hj v hv =>
      left (j + 1) (by omega) v ((runCycles_succ first j).trans hv)
    obtain ⟨started, -⟩ := later 0 (Nat.zero_le k) u rfl
    obtain ⟨counted, -⟩ := step_soundTimer (left 0 (Nat.zero_le _) s rfl) first started
    obtain ⟨rest, diag, reported⟩ := ih ((runCycles_succ first (k + 1)).symm.trans h) later
    have before : u.ST.toNat = s.ST.toNat - 1 := by rw [counted, countDown_toNat]
    have beeps : u.ST.toNat = k + 1 ↔ s.ST.toNat = k + 1 + 1 := by omega
    exact ⟨by omega, diag, by rw [reported, decide_eq_decide.mpr beeps]⟩

end Sys2Proof.Machine

namespace Sys2Proof.Proofs

open Sys2Proof.Machine

/-- Settles O7: the range check of the two bytes passes up to 4094, and above gives the lowest missing address. -/
theorem fetchReadsBigEndianOrFaults : Obligations.FetchReadsBigEndianOrFaults := by
  intro s
  refine ⟨fun inside => ⟨_, State.fetch_inside (by omega), wordOfBytes_toNat _ _⟩, fun running outside => ?_⟩
  have lowest : max s.pc.toNat 4096 = if s.pc.toNat = 4095 then 4096 else s.pc.toNat := by split <;> omega
  refine ⟨_, lowest, ?_⟩
  rw [step_fetchFault running (by omega), State.endHalted_raise]

/-- Settles O8, by induction on the number of cycles. -/
theorem haltedMachineStaysAsItIs : Obligations.HaltedMachineStaysAsItIs :=
  fun k _ _ halted recorded => runCycles_halted halted recorded k

/-- Settles O9: a fatal error and an unknown word are kinds of next state. -/
theorem everyStepAnswersNextState : Obligations.EveryStepAnswersNextState :=
  ⟨exec_answersNext, step_answersNext⟩

/-- Settles O11: the execute stage records the error on the advanced state, and the halt path follows. -/
theorem fatalCycleKeepsAdvanceOnly : Obligations.FatalCycleKeepsAdvanceOnly := by
  intro s i f running hpc decoded raised
  rw [step_raised running hpc decoded raised, State.endHalted_raise]
  rfl

/-- Settles O35: the rewind takes the advance back, so the cycle completes on the state it started from. -/
theorem waitForKeyCycleKeepsPcAndTicks : Obligations.WaitForKeyCycleKeepsPcAndTicks := by
  intro s x running hpc decoded none_held
  rw [step_completed running hpc decoded (exec_ldKey_advance none_held) running, State.complete_eq]

/-- Settles O37: the tick follows the execute stage, so it counts the value just written. -/
theorem timerWritesTickInTheirOwnCycle : Obligations.TimerWritesTickInTheirOwnCycle := by
  intro s x running hpc
  refine ⟨fun decoded => ?_, fun decoded => ?_⟩
  · exact ⟨_, step_completed running hpc decoded rfl running, countDown_toNat _, running⟩
  · refine ⟨_, step_completed running hpc decoded rfl running, countDown_toNat _, running, ?_⟩
    rw [State.complete_outcome, State.beep_eq]
    rfl

/-- Settles O38, by induction on the run: each cycle counts down once, and the last one beeps at 1. -/
theorem soundTimerBeepsOnceInItsCycle : Obligations.SoundTimerBeepsOnceInItsCycle :=
  fun _ _ _ h running left => runCycles_soundTimer h running left

end Sys2Proof.Proofs
end

section
/-! Control transfer (spec/41_control_flow.md R160 to R169): jumps, skips and the call stack, and a subroutine's call
and return over two cycles. -/

namespace Sys2Proof.Machine

variable {s : State} {nnn : BitVec 12}

/-! ## Skips by a comparison of bytes (R164 to R167) -/

theorem State.skipIf_beq (s : State) (a b : Byte) :
    s.skipIf (a == b) = { s with pc := if a.toNat = b.toNat then s.pc + 2 else s.pc } := by
  simp only [State.skipIf_eq, beq_iff_eq, BitVec.toNat_inj]

theorem State.skipIf_bne (s : State) (a b : Byte) :
    s.skipIf (a != b) = { s with pc := if a.toNat = b.toNat then s.pc else s.pc + 2 } := by
  simp only [State.skipIf_eq, bne_iff_ne, ite_not, BitVec.toNat_inj]

/-! ## The cycles of a call and of a return -/

/-- The state a `CALL nnn` fetched in `s` enters its subroutine with: the address after the `CALL` is pushed (R163). -/
def State.entered (s : State) (room : s.SP.val < 16) (nnn : BitVec 12) : State :=
  { s with S := s.S.set s.SP.val (s.pc + 2), SP := ⟨s.SP.val + 1, by omega⟩, pc := addressOf nnn }

/-- The state a `RET` fetched in `s` comes back with: the popped entry is `pc` and stays in place (R161). -/
def State.returned (s : State) (used : 0 < s.SP.val) : State :=
  { s with SP := ⟨s.SP.val - 1, by omega⟩, pc := s.S[s.SP.val - 1]'(by omega) }

/-- A cycle with a `CALL` and room on the stack (R141, R163). -/
theorem step_call (running : s.halted = false) (hpc : s.pc.toNat ≤ 4094) (room : s.SP.val < 16)
    (decoded : decode s.wordAtPc = .ok (.call nnn)) : step s = .next ((s.entered room nnn).complete none) :=
  step_completed running hpc decoded (exec_call_room (s := s.advance) nnn room) running

/-- A cycle with a `RET` and an entry on the stack (R141, R161). -/
theorem step_ret (running : s.halted = false) (hpc : s.pc.toNat ≤ 4094) (used : 0 < s.SP.val)
    (decoded : decode s.wordAtPc = .ok .ret) : step s = .next ((s.returned used).complete none) :=
  step_completed running hpc decoded (exec_ret_used (s := s.advance) used) running

/-- A subroutine starts with the word at its target (R84, R132). -/
theorem State.entered_wordAtPc (room : s.SP.val < 16) (diag : Option Word) :
    ((s.entered room nnn).complete diag).wordAtPc =
      wordOfBytes (s.M.read nnn.toNat) (s.M.read (nnn.toNat + 1)) := by
  simp only [State.wordAtPc, State.complete_M, State.complete_pc, State.entered, addressOf_toNat]

/-- The entry a `RET` pops is the one the `CALL` before it pushed (R40, R45). -/
theorem State.returned_entered (room : s.SP.val < 16) (diag : Option Word) :
    ((s.entered room nnn).complete diag).returned (Nat.succ_pos _) =
      { (s.entered room nnn).complete diag with pc := s.pc + 2, SP := s.SP } := by
  simp [State.entered, State.returned]

end Sys2Proof.Machine

namespace Sys2Proof.Proofs

open Sys2Proof.Machine

/-- Settles O17: the meaning of `SYS` is the state it is given. -/
theorem sysHasNoEffect : Obligations.SysHasNoEffect :=
  fun _ _ => rfl

/-- Settles O18: both targets fit 16 bits, so neither is reduced. -/
theorem jumpsSetPcExactly : Obligations.JumpsSetPcExactly :=
  fun nnn s => ⟨⟨_, rfl, addressOf_toNat nnn, rfl⟩, ⟨_, rfl, offsetTarget_toNat nnn s.V[0], rfl⟩⟩

/-- Settles O19, by room on the stack. -/
theorem callPushesReturnAddressOrOverflows : Obligations.CallPushesReturnAddressOrOverflows :=
  fun nnn _ =>
    ⟨fun room => ⟨_, exec_call_room nnn room, addressOf_toNat nnn, rfl, rfl, rfl⟩,
      fun full => exec_call_full nnn (by omega)⟩

/-- Settles O20, by an entry on the stack. -/
theorem retPopsReturnAddressOrUnderflows : Obligations.RetPopsReturnAddressOrUnderflows :=
  fun _ => ⟨fun used => ⟨_, exec_ret_used used, rfl, rfl, rfl⟩, fun empty => exec_ret_empty (by omega)⟩

/-- Settles O21: two bytes are equal exactly when their values are. -/
theorem registerSkipsAddTwoWhenConditionHolds : Obligations.RegisterSkipsAddTwoWhenConditionHolds :=
  fun x y kk s =>
    ⟨congrArg Host.Outcome.next (s.skipIf_beq s.V[x] kk), congrArg Host.Outcome.next (s.skipIf_bne s.V[x] kk),
      congrArg Host.Outcome.next (s.skipIf_beq s.V[x] s.V[y]),
      congrArg Host.Outcome.next (s.skipIf_bne s.V[x] s.V[y])⟩

/-- Settles O22: the `CALL` cycle, then the `RET` cycle, which pops what the first one pushed. -/
theorem callThenRetComesBack : Obligations.CallThenRetComesBack := by
  intro s nnn running hpc room target called returns
  have first := step_call running hpc room called
  have second := step_ret (s := (s.entered room nnn).complete none) running
    ((addressOf_toNat nnn).trans_le target) (Nat.succ_pos _) (by rwa [State.entered_wordAtPc])
  rw [State.returned_entered] at second
  rw [runCycles_succ first, runCycles_succ second, runCycles]
  exact ⟨_, rfl, rfl, rfl, running, rfl, rfl, rfl, rfl⟩

end Sys2Proof.Proofs
end

section
/-! The register and arithmetic instructions (spec/42_alu.md R190 to R206): each is one register write, or one result
with its flag, so its statement is the value of the byte it writes. -/

namespace Sys2Proof.Machine

/-! ## Frames -/

/-- A register write changes that register only (R30). -/
theorem State.setV_changesOnlyV (s : State) (x : Reg) (v : Byte) : s.changesOnlyV (s.setV x v) x :=
  ⟨fun _ other => s.setV_get_other v other, rfl⟩

/-- A result with its flag changes that register and `VF` only (R31). -/
theorem State.setVFlag_changesOnlyVFlag (s : State) (x : Reg) (v : Byte) (b : Bool) :
    s.changesOnlyVFlag (s.setVFlag x v b) x :=
  ⟨fun _ other unflagged => s.setVFlag_get_other v b other unflagged, rfl⟩

/-! ## Values of bytes -/

theorem toNat_sub_byte (a b : Byte) : (a - b).toNat = (256 + a.toNat - b.toNat) % 256 := by
  rw [BitVec.toNat_sub]
  omega

theorem toNat_shiftRight_one (a : Byte) : (a >>> 1).toNat = a.toNat / 2 := by
  rw [BitVec.toNat_ushiftRight, Nat.shiftRight_one]

theorem toNat_shiftLeft_one (a : Byte) : (a <<< 1).toNat = 2 * a.toNat % 256 := by
  rw [BitVec.toNat_shiftLeft, Nat.shiftLeft_eq, Nat.mul_comm, pow_one]

/-! ## Values of flags (R206) -/

theorem flagByte_decide_toNat (p : Prop) [Decidable p] : (flagByte (decide p)).toNat = if p then 1 else 0 := by
  by_cases h : p <;> simp [flagByte, h]

theorem carryFlag_toNat (a b : Byte) :
    (flagByte (carryFlag a b)).toNat = if a.toNat + b.toNat > 255 then 1 else 0 :=
  flagByte_decide_toNat _

theorem exceedsFlag_toNat (a b : Byte) : (flagByte (exceedsFlag a b)).toNat = if a.toNat > b.toNat then 1 else 0 :=
  flagByte_decide_toNat _

theorem lowBitFlag_toNat (a : Byte) : (flagByte (lowBitFlag a)).toNat = a.toNat % 2 := by
  rw [lowBitFlag, ← BitVec.testBit_toNat, Nat.testBit_zero, flagByte_decide_toNat]
  split <;> omega

theorem highBitFlag_toNat (a : Byte) : (flagByte (highBitFlag a)).toNat = a.toNat / 128 := by
  rw [highBitFlag, ← BitVec.testBit_toNat, Nat.testBit_eq_decide_div_mod_eq, flagByte_decide_toNat]
  split <;> omega

/-! ## Instructions that write one byte -/

variable {i : Instr} {s : State} {x : Reg} {v : Byte}

/-- What an instruction does whose meaning is a register write of a byte with the bits `f`. -/
theorem exec_setV_bits {f : Nat → Bool} (meaning : exec i s = .next (s.setV x v))
    (bits : ∀ b < 8, v.getLsbD b = f b) :
    ∃ t, exec i s = .next t ∧ s.changesOnlyV t x ∧ ∀ b < 8, t.V[x].getLsbD b = f b :=
  ⟨_, meaning, s.setV_changesOnlyV x v, by rwa [s.setV_get_same]⟩

/-- What an instruction does whose meaning is a result of value `value` with a flag of value `flag`. -/
theorem exec_setVFlag_values {b : Bool} {value flag : Nat} (meaning : exec i s = .next (s.setVFlag x v b))
    (hvalue : v.toNat = value) (hflag : (flagByte b).toNat = flag) :
    ∃ t, exec i s = .next t ∧ (x ≠ VF → t.V[x].toNat = value) ∧ t.V[VF].toNat = flag ∧ s.changesOnlyVFlag t x :=
  ⟨_, meaning, fun h => by rw [s.setVFlag_get_result v b h, hvalue], by rw [s.setVFlag_get_flag, hflag],
    s.setVFlag_changesOnlyVFlag x v b⟩

end Sys2Proof.Machine

namespace Sys2Proof.Proofs

open Sys2Proof.Machine

/-- Settles O23: each is a register write, and the sum of two bytes is taken modulo 256. -/
theorem loadsAndAddImmediateTouchNoFlag : Obligations.LoadsAndAddImmediateTouchNoFlag := by
  intro x y kk s
  have sum : (s.setV x (s.V[x] + kk)).V[x].toNat = (s.V[x].toNat + kk.toNat) % 256 := by
    rw [s.setV_get_same, BitVec.toNat_add]
  exact ⟨⟨_, rfl, s.setV_get_same x kk, s.setV_changesOnlyV x kk⟩,
    ⟨_, rfl, s.setV_get_same x s.V[y], s.setV_changesOnlyV x s.V[y]⟩,
    ⟨_, rfl, sum, s.setV_changesOnlyV x (s.V[x] + kk)⟩⟩

/-- Settles O24: each is a register write, of a byte whose bits are combined one by one. -/
theorem bitwiseOperationsCombineBits : Obligations.BitwiseOperationsCombineBits :=
  fun _ _ _ =>
    ⟨exec_setV_bits rfl fun _ _ => BitVec.getLsbD_or, exec_setV_bits rfl fun _ _ => BitVec.getLsbD_and,
      exec_setV_bits rfl fun _ _ => BitVec.getLsbD_xor⟩

/-- Settles O25: the sum of two bytes is taken modulo 256, and the carry is of their exact sum. -/
theorem addRegistersSetsSumAndCarry : Obligations.AddRegistersSetsSumAndCarry :=
  fun x y s => exec_setVFlag_values rfl (BitVec.toNat_add s.V[x] s.V[y]) (carryFlag_toNat s.V[x] s.V[y])

/-- Settles O26: the two differ in which operand is the minuend. -/
theorem subtractionsFlagStrictComparison : Obligations.SubtractionsFlagStrictComparison :=
  fun x y s =>
    ⟨exec_setVFlag_values rfl (toNat_sub_byte s.V[x] s.V[y]) (exceedsFlag_toNat s.V[x] s.V[y]),
      exec_setVFlag_values rfl (toNat_sub_byte s.V[y] s.V[x]) (exceedsFlag_toNat s.V[y] s.V[x])⟩

/-- Settles O27: a shift by one halves or doubles, and its flag is the remainder or the high bit of the old byte. -/
theorem shiftsMoveVxAndFlagTheBitShiftedOut : Obligations.ShiftsMoveVxAndFlagTheBitShiftedOut :=
  fun x _ s =>
    ⟨exec_setVFlag_values rfl (toNat_shiftRight_one s.V[x]) (lowBitFlag_toNat s.V[x]),
      exec_setVFlag_values rfl (toNat_shiftLeft_one s.V[x]) (highBitFlag_toNat s.V[x])⟩

/-- Settles O28: a register write of the cycle's random byte under the mask. -/
theorem rndMasksTheCyclesRandomByte : Obligations.RndMasksTheCyclesRandomByte :=
  fun _ _ _ => exec_setV_bits rfl fun _ _ => BitVec.getLsbD_and

end Sys2Proof.Proofs
end

section
/-! The display (spec/43_display.md R230 to R235): the sprite of a `DRW`, the state it leaves, and what drawing the same
sprite a second time does. -/

namespace Sys2Proof.Machine

/-! ## Flag values (R33) -/

theorem flagByte_toNat_eq_one {b : Bool} : (flagByte b).toNat = 1 ↔ b = true := by cases b <;> decide

theorem flagByte_toNat_eq_zero {b : Bool} : (flagByte b).toNat = 0 ↔ b = false := by cases b <;> decide

theorem State.setFlag_get_VF (s : State) (b : Bool) : (s.setFlag b).V[VF] = flagByte b := s.setV_get_same VF _

/-! ## Sprite bytes -/

/-- A set bit of the bytes read at `I` is a set bit of the sprite (R231, R232). -/
theorem State.spriteAt_readBytes (s : State) (x0 y0 n px py : Nat) :
    spriteAt (s.M.readBytes (s.indexAddress 0) n) x0 y0 px py = true ↔ s.spritePixel x0 y0 n px py := by
  simp only [spriteAt, spriteBit, Memory.readBytes_length, Memory.readBytes_getD, Bool.and_eq_true, decide_eq_true_eq]
  constructor
  · rintro ⟨⟨left, right, top, bottom⟩, lit⟩
    rw [if_pos (by omega)] at lit
    exact ⟨py - y0, by omega, px - x0, by omega, by omega, by omega, lit⟩
  · rintro ⟨j, hj, b, hb, rfl, rfl, lit⟩
    rw [Nat.add_sub_cancel_left, Nat.add_sub_cancel_left, if_pos hj]
    exact ⟨by omega, lit⟩

/-- Equal bytes give equal reads. -/
theorem Memory.readBytes_congr {m m' : Memory} {a a' n : Nat} (same : ∀ j < n, m.read (a + j) = m'.read (a' + j)) :
    m.readBytes a n = m'.readBytes a' n := by
  refine List.ext_getElem (by simp) fun j hj _ => ?_
  rw [Memory.readBytes_getElem, Memory.readBytes_getElem]
  exact same j (by simpa using hj)

/-! ## One drawing and a second one -/

theorem Display.inside_of_get {P : Display} {px py : Nat} (on : P.get px py = true) : px < 64 ∧ py < 32 := by
  by_contra outside
  rw [P.get_outside outside] at on
  cases on

/-- A collision is a pixel of the grid that was on, under a set sprite bit (R234). -/
theorem Display.draw_collides_inside (P : Display) (x0 y0 : Nat) (sprite : List Byte) :
    (P.draw x0 y0 sprite).c = true ↔
      ∃ px < 64, ∃ py < 32, P.get px py = true ∧ spriteAt sprite x0 y0 px py = true := by
  rw [P.draw_collides]
  constructor
  · rintro ⟨px, py, lit, on⟩
    obtain ⟨hx, hy⟩ := P.inside_of_get on
    exact ⟨px, hx, py, hy, on, lit⟩
  · rintro ⟨px, -, py, -, on, lit⟩
    exact ⟨px, py, lit, on⟩

/-- Flipping the same pixels twice restores them (R235). -/
theorem Display.draw_draw (P : Display) (x0 y0 : Nat) (sprite : List Byte) :
    ((P.draw x0 y0 sprite).P.draw x0 y0 sprite).P = P := by
  refine Display.ext_get fun px hx py hy => ?_
  rw [Display.draw_get _ _ _ _ _ _ hx hy, P.draw_get _ _ _ _ _ hx hy, Bool.xor_assoc, Bool.xor_self, Bool.xor_false]

/-- The second drawing of a sprite collides where the first turned a pixel on (R235). -/
theorem Display.draw_draw_collides (P : Display) (x0 y0 : Nat) (sprite : List Byte) :
    ((P.draw x0 y0 sprite).P.draw x0 y0 sprite).c = true ↔
      ∃ px < 64, ∃ py < 32, P.get px py = false ∧ (P.draw x0 y0 sprite).P.get px py = true := by
  have turned_on : ∀ old lit : Bool,
      ((old ^^ lit) = true ∧ lit = true) ↔ (old = false ∧ (old ^^ lit) = true) := by decide
  rw [Display.draw_collides_inside]
  refine exists_congr fun px => and_congr_right fun hx => exists_congr fun py => and_congr_right fun hy => ?_
  rw [P.draw_get _ _ _ _ _ hx hy]
  exact turned_on _ _

/-! ## The meaning of `DRW` -/

variable {s t : State} {x y : Reg} {n : Fin 16}

/-- What `DRW Vx, Vy, n` draws: the `n` bytes at `I`, from `(V[x] mod 64, V[y] mod 32)` (R231). -/
def State.drawn (s : State) (x y : Reg) (n : Fin 16) : Drawing :=
  s.P.draw (s.V[x].toNat % 64) (s.V[y].toNat % 32) (s.M.readBytes (s.indexAddress 0) n.val)

/-- The state after a `DRW` whose sprite lies in memory (R231). -/
def State.afterDraw (s : State) (x y : Reg) (n : Fin 16) : State :=
  State.setFlag { s with P := (s.drawn x y n).P } (s.drawn x y n).c

theorem exec_drw_inside (inside : n.val = 0 ∨ s.I.toNat + n.val ≤ 4096) :
    exec (.drw x y n) s = .next (s.afterDraw x y n) := by
  have present : n.val = 0 ∨ s.indexAddress 0 + n.val ≤ 4096 := inside
  rw [exec, execDrw, State.loadBytes_eq, if_pos present]
  rfl

/-- A sprite that reaches past memory is a fatal error with the lowest missing address (R231, R302). -/
theorem exec_drw_outside (rows : n.val ≠ 0) (outside : 4096 < s.I.toNat + n.val) :
    exec (.drw x y n) s = .next (s.raise (.addressOutOfRange (max s.I.toNat 4096))) := by
  have missing : ¬(n.val = 0 ∨ s.indexAddress 0 + n.val ≤ 4096) := by
    rw [State.indexAddress]
    omega
  rw [exec, execDrw, State.loadBytes_eq, if_neg missing]
  rfl

theorem State.afterDraw_P : (s.afterDraw x y n).P = (s.drawn x y n).P := rfl

theorem State.afterDraw_get_VF : (s.afterDraw x y n).V[VF] = flagByte (s.drawn x y n).c := State.setFlag_get_VF _ _

theorem State.drawn_get {px py : Nat} (hx : px < 64) (hy : py < 32) :
    (s.drawn x y n).P.get px py = true ↔
      Xor (s.P.get px py = true) (s.spritePixel (s.V[x].toNat % 64) (s.V[y].toNat % 32) n.val px py) := by
  rw [← s.spriteAt_readBytes, ← Bool.coe_xor_iff, State.drawn, Display.draw_get _ _ _ _ _ _ hx hy]

theorem State.drawn_collides :
    (s.drawn x y n).c = true ↔ ∃ px < 64, ∃ py < 32, s.P.get px py = true ∧
      s.spritePixel (s.V[x].toNat % 64) (s.V[y].toNat % 32) n.val px py := by
  simp only [State.drawn, Display.draw_collides_inside, s.spriteAt_readBytes]

/-- A state with the operands and the sprite bytes of `s` draws the sprite of `s`, on its own display. -/
theorem State.drawn_congr (hx : t.V[x] = s.V[x]) (hy : t.V[y] = s.V[y])
    (bytes : ∀ j < n.val, t.M.read (t.indexAddress j) = s.M.read (s.indexAddress j)) :
    t.drawn x y n =
      t.P.draw (s.V[x].toNat % 64) (s.V[y].toNat % 32) (s.M.readBytes (s.indexAddress 0) n.val) := by
  have sprite : t.M.readBytes (t.indexAddress 0) n.val = s.M.readBytes (s.indexAddress 0) n.val :=
    Memory.readBytes_congr bytes
  rw [State.drawn, hx, hy, sprite]

end Sys2Proof.Machine

namespace Sys2Proof.Proofs

open Sys2Proof.Machine

/-- Settles O29: `CLS` puts the empty display in place of the old one. -/
theorem clsTurnsEveryPixelOff : Obligations.ClsTurnsEveryPixelOff :=
  fun _ => ⟨_, rfl, fun x _ y _ => Display.get_clear x y, rfl⟩

/-- Settles O30, by whether the sprite lies in memory. -/
theorem drwXorsTheSpriteAndFlagsCollision : Obligations.DrwXorsTheSpriteAndFlagsCollision := by
  intro x y n s
  refine ⟨fun inside => ⟨s.afterDraw x y n, exec_drw_inside inside, ?_, ?_, ?_, ?_, rfl⟩, exec_drw_outside⟩
  · exact fun px hx py hy => State.drawn_get hx hy
  · rw [State.afterDraw_get_VF, flagByte_toNat_eq_one, State.drawn_collides]
  · rw [State.afterDraw_get_VF, flagByte_toNat_eq_zero, flagByte_toNat_eq_one]
    exact (Bool.eq_false_or_eq_true _).symm
  · exact fun r other => State.setV_get_other _ _ other

/-- Settles O31: both draw the same sprite, so the second flips back the pixels the first flipped. -/
theorem drawingTwiceRestoresTheDisplay : Obligations.DrawingTwiceRestoresTheDisplay := by
  intro x y n s t s2 t2 inside first hx hy hI hP bytes second
  cases (exec_drw_inside inside).symm.trans first
  cases (exec_drw_inside (hI ▸ inside)).symm.trans second
  have again := State.drawn_congr hx hy bytes
  rw [hP, State.afterDraw_P] at again
  have collides : (s2.drawn x y n).c = true ↔
      ∃ px < 64, ∃ py < 32, s.P.get px py = false ∧ (s.drawn x y n).P.get px py = true := by
    rw [again]
    exact Display.draw_draw_collides _ _ _ _
  simp only [State.afterDraw_P, State.afterDraw_get_VF]
  refine ⟨?_, flagByte_toNat_eq_one.trans collides, ?_⟩
  · rw [again]
    exact Display.draw_draw _ _ _ _
  · rw [flagByte_toNat_eq_zero, ← Bool.not_eq_true, collides]
    push Not
    simp only [Bool.not_eq_true]

end Sys2Proof.Proofs
end

section
/-! The keypad and the timers (spec/44_keypad_timers.md R250 to R256): the key a skip names, the key a wait loads, and
the moves between a timer and a register. -/

namespace Sys2Proof.Machine

variable {s : State} {x : Reg} {v : Byte}

/-! ## The key a register names (R256) -/

theorem keyOperand_of_lt (index : v.toNat < 16) : keyOperand v = .ok ⟨v.toNat, index⟩ := by
  obtain ⟨_, named⟩ | ⟨above, -⟩ := keyOperand_cases v
  · exact named
  · omega

/-! ## Key skips (R250, R251) -/

theorem State.skipIf_not (s : State) (c : Bool) :
    s.skipIf (!c) = { s with pc := if c = true then s.pc else s.pc + 2 } := by
  cases c <;> rfl

theorem exec_skp_index (index : s.V[x].toNat < 16) : exec (.skp x) s = .next (s.skipIf s.keys[s.V[x].toNat]) := by
  rw [exec, execSkp, State.getV, keyOperand_of_lt index, orRaise_ok]
  rfl

theorem exec_sknp_index (index : s.V[x].toNat < 16) :
    exec (.sknp x) s = .next (s.skipIf (!s.keys[s.V[x].toNat])) := by
  rw [exec, execSknp, State.getV, keyOperand_of_lt index, orRaise_ok]
  rfl

/-- An instruction whose rules give it a fatal error only records it (R140, R311). -/
theorem exec_raised {i : Instr} {f : Fault} (raised : raisedBy i s = some f) : exec i s = .next (s.raise f) :=
  (exec_raisesPrecisely i s).raised_or_kept.1 f raised

/-! ## The key wait (R253) -/

/-- A held key with none held below it is the one found: the search finds some key, and neither of the two can be below
the other. -/
theorem lowestHeld_of_least {K : Vector Bool 16} {k : Fin 16} (held : K[k] = true)
    (least : ∀ i : Fin 16, i < k → K[i] = false) : lowestHeld K = some k := by
  cases found : lowestHeld K with
  | none => exact absurd held (by simp [lowestHeld_eq_none.mp found k])
  | some j =>
    obtain ⟨held_j, least_j⟩ := lowestHeld_eq_some found
    obtain below | rfl | above := lt_trichotomy j k
    · exact absurd held_j (by simp [least j below])
    · rfl
    · exact absurd held (by simp [least_j k above])

theorem exec_ldKey_unheld (none_held : ∀ k : Fin 16, s.keys[k] = false) :
    exec (.ldKey x) s = .next (s.jump (s.pc - 2)) := by
  rw [exec, execLdKey, lowestHeld_eq_none.mpr none_held, State.instrAddress]

theorem exec_ldKey_least {k : Fin 16} (held : s.keys[k] = true) (least : ∀ i : Fin 16, i < k → s.keys[i] = false) :
    exec (.ldKey x) s = .next (s.setV x (byteOf k.val)) := by
  rw [exec, execLdKey, lowestHeld_of_least held least]

theorem byteOf_key_toNat (k : Fin 16) : (byteOf k.val).toNat = k.val :=
  (BitVec.toNat_ofNat _ _).trans (Nat.mod_eq_of_lt (by omega))

end Sys2Proof.Machine

namespace Sys2Proof.Proofs

open Sys2Proof.Machine

/-- Settles O34: the search for the least held key fails with no key held, and else finds the key given. -/
theorem waitForKeyRewindsOrLoadsLowestKey : Obligations.WaitForKeyRewindsOrLoadsLowestKey := by
  intro x s
  refine ⟨exec_ldKey_unheld, fun k held least => ⟨_, exec_ldKey_least held least, ?_, s.setV_changesOnlyV x _⟩⟩
  rw [s.setV_get_same, byteOf_key_toNat]

/-- Settles O33, by whether `V[x]` is a key index. -/
theorem keySkipsFollowTheKeyOrFault : Obligations.KeySkipsFollowTheKeyOrFault := by
  intro x s
  refine ⟨fun index => ⟨?_, ?_⟩, fun above => ⟨exec_raised (if_pos above), exec_raised (if_pos above)⟩⟩
  · rw [exec_skp_index index, State.skipIf_eq]
  · rw [exec_sknp_index index, State.skipIf_not]

/-- Settles O36: one is a register write of `DT`, and the other two are the timer's update. -/
theorem timerMovesCopyTheirRegister : Obligations.TimerMovesCopyTheirRegister :=
  fun x s => ⟨⟨_, rfl, s.setV_get_same x s.DT, s.setV_changesOnlyV x s.DT⟩, rfl, rfl⟩

end Sys2Proof.Proofs
end

section
/-! The index register and its memory accesses (spec/45_index_memory.md R270 to R277): the value an instruction gives
`I`, the bytes a store puts at `I` upward, the registers a load fills, and the fatal errors of both. -/

namespace Sys2Proof.Machine

variable {s : State} {x : Reg} {bytes : List Byte} {a n : Nat}

/-! ## The index register (R271 to R273) -/

theorem toNat_add_setWidth_byte (a : Word) (b : Byte) :
    (a + b.setWidth 16).toNat = (a.toNat + b.toNat) % 65536 := by
  rw [BitVec.toNat_add, BitVec.toNat_setWidth_of_le (by decide)]

/-- The sum of R273 fits `I` for every byte, a digit or not. -/
theorem glyphAddress_toNat_of_byte (v : Byte) : (BitVec.ofNat 16 (glyphAddress v)).toNat = 0x050 + 5 * v.toNat := by
  have := v.isLt
  simp only [glyphAddress, Config.fontBase, BitVec.toNat_ofNat]
  omega

/-! ## The digits of a byte (R274, R275) -/

@[simp] theorem bcdDigits_length (v : Byte) : (bcdDigits v).length = 3 := rfl

/-- A number that does not exceed a byte is a byte. -/
theorem byteOf_toNat_of_le {v : Byte} (h : n ≤ v.toNat) : (byteOf n).toNat = n :=
  (BitVec.toNat_ofNat _ _).trans (Nat.mod_eq_of_lt (h.trans_lt v.isLt))

theorem hundreds_toNat (v : Byte) : (byteOf (v.toNat / 100)).toNat = v.toNat / 100 :=
  byteOf_toNat_of_le (Nat.div_le_self _ _)

theorem tens_toNat (v : Byte) : (byteOf (v.toNat / 10 % 10)).toNat = v.toNat / 10 % 10 :=
  byteOf_toNat_of_le ((Nat.mod_le _ _).trans (Nat.div_le_self _ _))

theorem ones_toNat (v : Byte) : (byteOf (v.toNat % 10)).toNat = v.toNat % 10 :=
  byteOf_toNat_of_le (Nat.mod_le _ _)

/-! ## The fatal errors of a store (R302, R304) -/

theorem writeFault_outside (outside : 4096 < a + n) : writeFault a n = some (.addressOutOfRange (max a 4096)) :=
  if_pos outside

/-- A store of at most 16 bytes that reaches the font does not reach the end of memory (R309). -/
theorem writeFault_font (h16 : n ≤ 16) (above : 0x050 < a + n) (below : a ≤ 0x09F) :
    writeFault a n = some (.fontRegionWrite (max a 0x050)) := by
  rw [writeFault, if_neg (by omega), if_pos ⟨above, below⟩]

theorem State.Storable.faultless (ok : s.Storable bytes) : writeFault (s.indexAddress 0) bytes.length = none := by
  have fits := ok.fits
  have clear := ok.clear
  rw [writeFault, if_neg (by omega), if_neg (by omega)]

/-! ## Stores (R274, R276) -/

theorem State.Storable.read_stored (ok : s.Storable bytes) (canonical : s.M.wf = true) {j : Nat}
    (inside : j < bytes.length) : (s.stored bytes).M.read (s.indexAddress j) = bytes[j] :=
  Memory.read_writeBytes_inside _ _ ok.fits canonical j inside

theorem exec_ldB_stored (ok : s.Storable (bcdDigits (s.getV x))) :
    exec (.ldB x) s = .next (s.stored (bcdDigits (s.getV x))) := by
  have three := bcdDigits_length (s.getV x)
  rw [exec, execLdB, State.storeBytes_stored (by omega) (by omega) ok.faultless, orRaise_ok, id]

/-! ## The register load (R277) -/

/-- The state after `V[0]` to `V[x]` are loaded from `I` upward. -/
def State.loaded (s : State) (x : Reg) : State := s.setRegs (s.M.readBytes (s.indexAddress 0) (x.val + 1))

theorem exec_loadRegs_loaded (inside : s.indexAddress 0 + (x.val + 1) ≤ 4096) :
    exec (.loadRegs x) s = .next (s.loaded x) := by
  rw [exec, execLoadRegs, State.loadBytes_eq, if_pos (Or.inr inside), orRaise_ok, State.loaded]

theorem State.loaded_get {j : Reg} (named : j ≤ x) : (s.loaded x).V[j] = s.M.read (s.indexAddress j.val) := by
  have byte : j.val < x.val + 1 := Nat.lt_succ_of_le named
  rw [State.loaded, State.setRegs_get, Memory.readBytes_getD, if_pos byte]
  rfl

theorem State.loaded_get_above {j : Reg} (above : x < j) : (s.loaded x).V[j] = s.V[j] :=
  State.setRegs_get_above ((Memory.readBytes_length _ _ _).trans_le above)

end Sys2Proof.Machine

namespace Sys2Proof.Proofs

open Sys2Proof.Machine

/-- Settles O39: the zero-extended address and the glyph address fit `I`, and the sum is a 16-bit one. -/
theorem indexInstructionsSetI : Obligations.IndexInstructionsSetI :=
  fun _ nnn s => ⟨⟨_, rfl, addressOf_toNat nnn, rfl⟩, ⟨_, rfl, toNat_add_setWidth_byte s.I _, rfl⟩,
    ⟨_, rfl, glyphAddress_toNat_of_byte _, rfl⟩⟩

/-- Settles O40: each digit is a byte, and 100, 10 and 1 are the places of a decimal number. -/
theorem bcdDigitsStandForTheByte : Obligations.BcdDigitsStandForTheByte := by
  intro v
  have := v.isLt
  refine ⟨_, _, _, rfl, ?_⟩
  rw [hundreds_toNat, tens_toNat, ones_toNat]
  omega

/-- Settles O41: the digits are stored as a list, and a store that does not fit is a fatal error. -/
theorem storeBcdWritesThreeDigitsOrFaults : Obligations.StoreBcdWritesThreeDigitsOrFaults := by
  intro x s canonical
  refine ⟨fun fits clear => ?_, fun outside => exec_raised (writeFault_outside outside),
    fun above below => exec_raised (writeFault_font (by decide) above below)⟩
  have ok : s.Storable (bcdDigits (s.getV x)) := ⟨fits, clear⟩
  have three := bcdDigits_length (s.getV x)
  refine ⟨_, exec_ldB_stored ok, ?_, ?_, ?_, fun a => State.stored_read_outside rfl, rfl⟩
  · exact (congrArg BitVec.toNat (ok.read_stored canonical (by omega))).trans (hundreds_toNat _)
  · exact (congrArg BitVec.toNat (ok.read_stored canonical (by omega))).trans (tens_toNat _)
  · exact (congrArg BitVec.toNat (ok.read_stored canonical (by omega))).trans (ones_toNat _)

/-- Settles O42: byte `j` of the registers is `V[j]`, and a store that does not fit is a fatal error. -/
theorem registerDumpStoresV0ToVxOrFaults : Obligations.RegisterDumpStoresV0ToVxOrFaults := by
  intro x s canonical
  have count := s.regBytes_length x
  refine ⟨fun fits clear => ?_, fun outside => exec_raised (writeFault_outside outside),
    fun above below => exec_raised (writeFault_font x.isLt above below)⟩
  have ok : s.Storable (s.regBytes x) := ⟨by rwa [count], by rwa [count]⟩
  have faultless := ok.faultless
  rw [count] at faultless
  exact ⟨_, (exec_storeRegs_stored faultless).2, fun j named => ok.read_regBytes canonical named,
    fun a => State.stored_read_outside count, rfl⟩

/-- Settles O43, by whether the bytes lie in memory. -/
theorem registerLoadReadsV0ToVxOrFaults : Obligations.RegisterLoadReadsV0ToVxOrFaults :=
  fun x _ => ⟨fun inside => ⟨_, exec_loadRegs_loaded inside, fun _ => State.loaded_get,
      fun _ => State.loaded_get_above, rfl⟩,
    fun outside => exec_raised (if_pos ⟨x.val.succ_pos, outside⟩)⟩

end Sys2Proof.Proofs
end

section
/-! A machine run without a load (spec/70_reset_and_hazards.md R344): program memory is zeroed, and the word 0x0000 is
a `SYS`, so every cycle only advances and ticks, until `pc` leaves memory. -/

namespace Sys2Proof.Machine

variable {s t u : State}

/-! ## Cycles over zeroed memory -/

/-- One more cycle at the end of a run. -/
theorem runCycles_succ_last {k : Nat} (run : runCycles k s = .next t) (last : step t = .next u) :
    runCycles (k + 1) s = .next u :=
  (runCycles_add run).trans (runCycles_succ last 0)

/-- Memory is zero from address `a` upward. -/
def State.zeroFrom (s : State) (a : Nat) : Prop := ∀ c, a ≤ c → s.M.read c = 0

/-- A new machine's memory is zero above the font table, program memory included (R340). -/
theorem State.create_zeroFrom (init : Config.Init) : (State.create init).zeroFrom 0x200 := by
  intro c above
  rw [State.create_M, createdMemory_read, dif_neg (by omega)]

/-- Two zero bytes are the word of `SYS 0x000` (R84, R105). -/
theorem State.zeroFrom.decode_wordAtPc (zeroed : s.zeroFrom s.pc.toNat) : decode s.wordAtPc = .ok (.sys 0) := by
  rw [State.wordAtPc, zeroed _ le_rfl, zeroed _ (Nat.le_succ _)]
  rfl

/-- A cycle with a `SYS` only advances and ticks (R160). -/
theorem step_sys {nnn : BitVec 12} (running : s.halted = false) (hpc : s.pc.toNat ≤ 4094)
    (decoded : decode s.wordAtPc = .ok (.sys nnn)) : step s = .next (s.advance.complete none) :=
  step_completed running hpc decoded (Proofs.sysHasNoEffect nnn s.advance) running

/-- `t` is where `k` cycles with a `SYS` lead from `s`: the machine runs on, `k` words further, with its memory
unchanged, and the last of the cycles reported `Ok` with no diagnostic. -/
structure State.RanSys (s : State) (k : Nat) (t : State) : Prop where
  running : t.halted = false
  pc : t.pc.toNat = s.pc.toNat + 2 * k
  memory : t.M = s.M
  reported : 0 < k → ∃ beep, t.outcome = some (.ok beep none)

theorem State.RanSys.refl (running : s.halted = false) : s.RanSys 0 s :=
  ⟨running, rfl, rfl, nofun⟩

/-- The next cycle of the run (R160, R344). -/
theorem State.RanSys.succ {k : Nat} (ran : s.RanSys k t) (inside : t.pc.toNat ≤ 4094) :
    s.RanSys (k + 1) (t.advance.complete none) where
  running := ran.running
  pc := by
    have before := ran.pc
    rw [State.complete_pc, State.advance_pc]
    bv_omega
  memory := ran.memory
  reported _ := ⟨_, State.complete_outcome t.advance none⟩

/-- Memory that is zero from `pc` upward is run through word by word, to the end of memory at most (R344). -/
theorem runCycles_zeroFrom (running : s.halted = false) (zeroed : s.zeroFrom s.pc.toNat) {k : Nat}
    (inside : s.pc.toNat + 2 * k ≤ 4096) : ∃ t, runCycles k s = .next t ∧ s.RanSys k t := by
  induction k with
  | zero => exact ⟨s, rfl, .refl running⟩
  | succ k ih =>
    obtain ⟨t, run, ran⟩ := ih (by omega)
    have hpc := ran.pc
    have ahead : t.zeroFrom t.pc.toNat := by
      intro c above
      rw [ran.memory]
      exact zeroed c (by omega)
    exact ⟨_, runCycles_succ_last run (step_sys ran.running (by omega) ahead.decode_wordAtPc), ran.succ (by omega)⟩

/-- The cycle at the end of memory raises at the first missing address (R132, R302). -/
theorem step_endOfMemory (running : s.halted = false) (hpc : s.pc.toNat = 4096) :
    step s = .next (s.raise (.addressOutOfRange 0x1000)).endHalted := by
  rw [step_fetchFault running (by omega), hpc, Nat.max_self]

end Sys2Proof.Machine

namespace Sys2Proof.Proofs

open Sys2Proof.Machine

/-- Settles O52: 1792 zero words lie between 0x200 and the end of memory, and the next fetch has no byte to read. -/
theorem zeroedMemoryRunsToTheEndAndFaults : Obligations.ZeroedMemoryRunsToTheEndAndFaults := by
  intro init
  have runs {k : Nat} (hk : k ≤ 1792) :
      ∃ t, runCycles k (State.create init) = .next t ∧ (State.create init).RanSys k t :=
    runCycles_zeroFrom rfl (State.create_zeroFrom init) (show 0x200 + 2 * k ≤ 4096 by omega)
  refine ⟨fun k hk => ?_, ?_⟩
  · obtain ⟨t, run, ran⟩ := runs hk
    exact ⟨t, run, ran.running, ran.pc, ran.reported⟩
  · obtain ⟨t, run, ran⟩ := runs le_rfl
    exact ⟨_, runCycles_succ_last run (step_endOfMemory ran.running ran.pc), rfl, rfl, ran.pc⟩

end Sys2Proof.Proofs
end
